-- ==== Sys2Proof/Word.lean ====
section
/-! DEFINITION. The words of the machine: a byte (R9) and a pixel of four unsigned 8-bit channels (R22). -/

namespace Sys2Proof

/-- A byte: 8 bits, unsigned (R9). -/
abbrev Byte := BitVec 8

/-- "four unsigned 8-bit channels (r, g, b, a)" (R22). Equality is componentwise (R9). -/
structure Pixel where
  r : Byte
  g : Byte
  b : Byte
  a : Byte
deriving DecidableEq, Repr

end Sys2Proof
end

