-- ==== Sys2Proof/Config.lean ====
section
/-! DEFINITION. What one implementation of the codec fixes: the parameters the source leaves open (R8), each with the
value this spec gives it. -/

namespace Sys2Proof

/-- `DIFF_FIELDS` (R8, D6, U7): which channel's delta stands in bits 5:4, in bits 3:2 and in bits 1:0 of a DIFF byte, in
that order. The spec's own value is `rgb` (log entry 9). -/
inductive DiffFields where
  | rgb
  | rbg
  | grb
  | gbr
  | brg
  | bgr
deriving DecidableEq, Repr

/-- The parameters of R8 that a model should expose (`92_eei_decisions.md`). -/
structure Config where
  /-- `DIFF_FIELDS` (D6, log entry 9). -/
  diffFields : DiffFields
  /-- `ENC_DELTA_WRAP` (D8, log entry 11): the encoder's channel differences are signed 8-bit values. -/
  encDeltaWrap : Bool
  /-- `ENC_RUN_CACHE_WRITE` (D9, log entry 12): the encoder writes the cache for a pixel absorbed into a run. -/
  encRunCacheWrite : Bool
  /-- `CUR_BITS` (D25, U5, log entry 14): the width of the cursor and of every length; `none` is unbounded. -/
  curBits : Option Nat
deriving DecidableEq, Repr

/-- This spec's values of the parameters (R8). -/
def Config.spec : Config where
  diffFields := .rgb
  encDeltaWrap := true
  encRunCacheWrite := true
  curBits := none

end Sys2Proof
end

