-- ==== Sys2Proof/Syntax.lean ====
section
/-! DEFINITION. The instruction set: the six opcodes of `spec/opcode_table.json` (R80). -/

namespace Sys2Proof

/-- An opcode with its operands as the spec writes them (R10, R96): signed deltas and unbiased counts, never biased field
values. Which operands are legal is `Instr.WellFormed`. -/
inductive Instr where
  /-- `RGBA r,g,b,a` (R89, R153, R188). -/
  | rgba (r g b a : Byte)
  /-- `RGB r,g,b` (R88, R154, R191). -/
  | rgb (r g b : Byte)
  /-- `INDEX i` (R84, R155, R187): the operand is 6 bits wide, so every value is a cache index (R52). -/
  | index (idx : BitVec 6)
  /-- `DIFF dr,dg,db` (R85, R156, R189). -/
  | diff (dr dg db : Int)
  /-- `LUMA dg,drg,dbg`, where drg = dr - dg and dbg = db - dg (R86, R157, R190). -/
  | luma (dg drg dbg : Int)
  /-- `RUN n`: n pixels (R87, R158, R186). -/
  | run (n : Nat)
deriving DecidableEq, Repr

end Sys2Proof
end

