-- ==== Sys2Proof/WellFormed.lean ====
section
/-! DEFINITION. Which operands an opcode's fields can hold (R96, R92). -/

namespace Sys2Proof

/-- The operand ranges of R96: DIFF deltas in -2..1, LUMA's green delta in -32..31 and its two differences in -8..7, RUN
lengths in 1..62 (63 and 64 are reserved: their field values are the RGB and RGBA tags, R92). -/
abbrev Instr.WellFormed : Instr → Prop
  | .rgba _ _ _ _ => True
  | .rgb _ _ _ => True
  | .index _ => True
  | .diff dr dg db => (-2 ≤ dr ∧ dr ≤ 1) ∧ (-2 ≤ dg ∧ dg ≤ 1) ∧ (-2 ≤ db ∧ db ≤ 1)
  | .luma dg drg dbg => (-32 ≤ dg ∧ dg ≤ 31) ∧ (-8 ≤ drg ∧ drg ≤ 7) ∧ (-8 ≤ dbg ∧ dbg ≤ 7)
  | .run n => 1 ≤ n ∧ n ≤ 62

end Sys2Proof
end

