-- ==== Sys2Proof/Decode.lean ====
section
/-! DEFINITION. From bytes to opcodes and back: the classification of a tag byte (R81, R82), the opcode-width table (R90),
the six formats (R84 to R89) read by `decode` and written by `encode`, and the host's view of the opcode table. -/

namespace Sys2Proof

/-- The six classes of tag byte (R81). -/
inductive Tag where
  | rgba
  | rgb
  | index
  | diff
  | luma
  | run
deriving DecidableEq, Repr

/-- R81: exact 0xFF, then exact 0xFE, then the top two bits. -/
def classify (tagByte : Byte) : Tag :=
  if tagByte = 0xFF#8 then .rgba
  else if tagByte = 0xFE#8 then .rgb
  else if tagByte.extractLsb' 6 2 = 0b00#2 then .index
  else if tagByte.extractLsb' 6 2 = 0b01#2 then .diff
  else if tagByte.extractLsb' 6 2 = 0b10#2 then .luma
  else .run

/-- The operand bytes that follow a tag byte of each class (R82, R90). -/
def operandCount : Tag → Nat
  | .rgba => 4
  | .rgb => 3
  | .index => 0
  | .diff => 0
  | .luma => 1
  | .run => 0

/-- The opcode-width table (R90): 5, 4, 1, 1, 2, 1. Not the "(1, 2, 3, or 4)" of the source (`90_conflicts.md` C2). -/
def opcodeLength (t : Tag) : Nat := operandCount t + 1

/-- The class of an instruction. -/
def Instr.tag : Instr → Tag
  | .rgba _ _ _ _ => .rgba
  | .rgb _ _ _ => .rgb
  | .index _ => .index
  | .diff _ _ _ => .diff
  | .luma _ _ _ => .luma
  | .run _ => .run

/-- The length in bytes of an instruction (R90). -/
def Instr.length (i : Instr) : Nat := opcodeLength i.tag

/-- R91: a biased field, unsigned as stored, stands for its value minus the bias. -/
def unbias {w : Nat} (bias : Int) (field : BitVec w) : Int := (field.toNat : Int) - bias

/-- R91: the field that stores a delta, the delta plus the bias. -/
def addBias (w : Nat) (bias : Int) (delta : Int) : BitVec w := BitVec.ofInt w (delta + bias)

/-- `DIFF_FIELDS` on the way out: the fields for red, green and blue, in the order of bits 5:4, 3:2, 1:0. -/
def DiffFields.place (f : DiffFields) (r g b : BitVec 2) : BitVec 2 × BitVec 2 × BitVec 2 :=
  match f with
  | .rgb => (r, g, b)
  | .rbg => (r, b, g)
  | .grb => (g, r, b)
  | .gbr => (g, b, r)
  | .brg => (b, r, g)
  | .bgr => (b, g, r)

/-- `DIFF_FIELDS` on the way in: the fields in bits 5:4, 3:2, 1:0, as the fields of red, green and blue. -/
def DiffFields.pick (f : DiffFields) (hi mid lo : BitVec 2) : BitVec 2 × BitVec 2 × BitVec 2 :=
  match f with
  | .rgb => (hi, mid, lo)
  | .rbg => (hi, lo, mid)
  | .grb => (mid, hi, lo)
  | .gbr => (lo, hi, mid)
  | .brg => (mid, lo, hi)
  | .bgr => (lo, mid, hi)

/-- Format DIFF (R85): the three deltas of a DIFF byte. -/
def diffOf (f : DiffFields) (tagByte : Byte) : Instr :=
  let (r, g, b) := f.pick (tagByte.extractLsb' 4 2) (tagByte.extractLsb' 2 2) (tagByte.extractLsb' 0 2)
  .diff (unbias 2 r) (unbias 2 g) (unbias 2 b)

/-- Format LUMA (R86): the three operands of a LUMA opcode. -/
def lumaOf (tagByte second : Byte) : Instr :=
  .luma (unbias 32 (tagByte.extractLsb' 0 6)) (unbias 8 (second.extractLsb' 4 4)) (unbias 8 (second.extractLsb' 0 4))

/-- The opcode of a tag byte and its operand bytes (R84 to R89); none when the operand bytes are not as many as the tag
byte calls for. Operand bytes are never classified (R80, R262). -/
def assemble (f : DiffFields) (tagByte : Byte) (operands : List Byte) : Option Instr :=
  match classify tagByte with
  | .rgba => match operands with
    | [r, g, b, a] => some (.rgba r g b a)
    | _ => none
  | .rgb => match operands with
    | [r, g, b] => some (.rgb r g b)
    | _ => none
  | .index => match operands with
    | [] => some (.index (tagByte.extractLsb' 0 6))
    | _ => none
  | .diff => match operands with
    | [] => some (diffOf f tagByte)
    | _ => none
  | .luma => match operands with
    | [second] => some (lumaOf tagByte second)
    | _ => none
  | .run => match operands with
    | [] => some (.run ((tagByte.extractLsb' 0 6).toNat + 1))
    | _ => none

/-- Why no opcode could be read. There is no illegal encoding (R93). -/
inductive DecodeError where
  /-- No byte is left: the loop of R151 is over. -/
  | endOfInput
  /-- Fewer operand bytes follow the tag byte than it calls for (R162). -/
  | truncated (tagByte : Byte)
deriving DecidableEq, Repr

/-- The first opcode of a byte sequence and the bytes after it (R80, R90). Total: every byte sequence decodes or is
rejected by name. -/
def decode (f : DiffFields) : List Byte → Except DecodeError (Instr × List Byte)
  | [] => .error .endOfInput
  | tagByte :: rest =>
    match assemble f tagByte (rest.take (operandCount (classify tagByte))) with
    | some i => .ok (i, rest.drop (operandCount (classify tagByte)))
    | none => .error (.truncated tagByte)

/-- R85: `0x40 | (DR << 4) | (DG << 2) | DB`, with the fields in the order of bits 5:4, 3:2, 1:0. -/
def diffByte (hi mid lo : BitVec 2) : Byte :=
  0x40#8 ||| (hi.setWidth 8 <<< 4) ||| (mid.setWidth 8 <<< 2) ||| lo.setWidth 8

/-- R86: `0x80 | DG`. -/
def lumaByte (dg : BitVec 6) : Byte := 0x80#8 ||| dg.setWidth 8

/-- R86: `(DRG << 4) | DBG`. -/
def lumaSecond (drg dbg : BitVec 4) : Byte := (drg.setWidth 8 <<< 4) ||| dbg.setWidth 8

/-- R87: `0xC0 | LEN`. -/
def runByte (len : BitVec 6) : Byte := 0xC0#8 ||| len.setWidth 8

/-- The bytes of an opcode (R84 to R89, R96), in stream order (R53). -/
def encode (f : DiffFields) : Instr → List Byte
  | .rgba r g b a => [0xFF#8, r, g, b, a]
  | .rgb r g b => [0xFE#8, r, g, b]
  | .index idx => [idx.setWidth 8]
  | .diff dr dg db =>
    let (hi, mid, lo) := f.place (addBias 2 2 dr) (addBias 2 2 dg) (addBias 2 2 db)
    [diffByte hi mid lo]
  | .luma dg drg dbg => [lumaByte (addBias 6 32 dg), lumaSecond (addBias 4 8 drg) (addBias 4 8 dbg)]
  | .run n => [runByte (BitVec.ofNat 6 (n - 1))]

/-- The bytes of a sequence of opcodes, one after the other (R61). -/
def encodeAll (f : DiffFields) (is : List Instr) : List Byte := is.flatMap (encode f)

/-- The textual form of an opcode (R96, D19): mnemonic and decimal operands. -/
def Instr.render : Instr → String
  | .rgba r g b a => "RGBA " ++ toString r.toNat ++ "," ++ toString g.toNat ++ "," ++ toString b.toNat ++ "," ++ toString a.toNat
  | .rgb r g b => "RGB " ++ toString r.toNat ++ "," ++ toString g.toNat ++ "," ++ toString b.toNat
  | .index idx => "INDEX " ++ toString idx.toNat
  | .diff dr dg db => "DIFF " ++ toString dr ++ "," ++ toString dg ++ "," ++ toString db
  | .luma dg drg dbg => "LUMA " ++ toString dg ++ "," ++ toString drg ++ "," ++ toString dbg
  | .run n => "RUN " ++ toString n

/-- The textual form of a sequence of opcodes (R96): items separated by `;`. -/
def renderAll (is : List Instr) : String := "; ".intercalate (is.map Instr.render)

/-- The five bytes (the longest opcode's) of a table word: byte k is bits 8k+7 to 8k, and the bits above `nbits` are
zero. Bit 0 is the least significant bit of the first byte. -/
def tableBytes (nbits w : Nat) : List Byte :=
  [0, 1, 2, 3, 4].map fun k => BitVec.ofNat 8 ((w % 2 ^ nbits) >>> (8 * k))

/-- The instruction the decoder reads from a word of the opcode table. -/
def decodeTableWord (nbits w : Nat) : Option Instr :=
  match decode Config.spec.diffFields (tableBytes nbits w) with
  | .ok (i, _) => some i
  | .error _ => none

end Sys2Proof
end

