-- ==== Sys2Proof/Machine/State.lean ====
section
/-! DEFINITION. Everything the spec gives the machine (R20, R50, R130), as plain data, and the machine after power-on. -/

namespace Sys2Proof.Machine

/-- The recency cache: 64 slots of one pixel (R28, R113). A slot is read and written whole (R57). -/
abbrev Cache := Vector Pixel 64

/-- The five causes of an error (R221). -/
inductive Cause where
  | headerShort
  | badMagic
  | endMarker
  | pixelCount
  | truncated
deriving DecidableEq, Repr

/-- The two kinds of error (R220). -/
inductive ErrorKind where
  | formatError
  | truncatedStreamError
deriving DecidableEq, Repr

/-- Where a pass stands (R31, D18). -/
inductive Status where
  | idle
  | busy
  | doneOk
  | doneErr (cause : Cause)
deriving DecidableEq, Repr

/-- How a pass is fed: from a complete buffer that the agent walks by itself (R151, R184), or one byte or pixel at a time by
events of the host (R165, R199). -/
inductive Drive where
  | buffer
  | stream
deriving DecidableEq, Repr

/-- The operand latch `DEC.op` of the byte-at-a-time form (R32, R165): waiting for a tag byte, or holding a tag byte, the
number of operand bytes it needs and those received. -/
inductive Phase where
  | tag
  | operands (tagByte : Byte) (need : Nat) (got : List Byte)
deriving DecidableEq, Repr

/-- The encoder's registers and buffers (R20, R27, R50). -/
structure Enc where
  status : Status
  drive  : Drive
  prev   : Pixel
  run    : BitVec 6
  cache  : Cache
  px     : List Pixel
  pos    : Nat
  out    : List Byte
deriving DecidableEq, Repr

/-- The decoder's registers and buffers (R20, R50). `cur` is the program counter (R26), `input` is IN, `pix` is PIX. -/
structure Dec where
  status : Status
  drive  : Drive
  prev   : Pixel
  cache  : Cache
  cur    : Nat
  op     : Phase
  input  : List Byte
  pix    : List Pixel
deriving DecidableEq, Repr

/-- The header fields after the magic (R130). -/
structure Header where
  width      : BitVec 32
  height     : BitVec 32
  channels   : Byte
  colorspace : Byte
deriving DecidableEq, Repr

/-- An image (R130): its header fields and its pixels in order. -/
structure Image where
  header : Header
  pixels : List Pixel
deriving DecidableEq, Repr

/-- What FRAME waits for: nothing, the ENC pass of `frame_encode` (R136), or the DEC pass of `frame_decode` (R137). -/
inductive FramePhase where
  | ready
  | encoding
  | decoding
deriving DecidableEq, Repr

/-- The container unit (R130 to R141): `file` is the file buffer, input on decode and output on encode; `image` is what a
decode returned. Its `status` is the model's choice (DESIGN CHOICE, log entry 30): the spec gives one to ENC and DEC only
(R20) and does not say where FRAME's codes (R221) are shown. -/
structure Frame where
  status : Status
  phase  : FramePhase
  header : Header
  file   : List Byte
  image  : Option Image
deriving DecidableEq, Repr

/-- A move of the host (R235, D2): Start of a pass on a complete buffer, a call of the container, or an event of the byte-
or pixel-at-a-time form. -/
inductive HostMove where
  /-- Start of a DEC pass on the payload IN (R150, R253). -/
  | startDec (payload : List Byte)
  /-- Start of an ENC pass on the pixels PX (R180, R253). -/
  | startEnc (pixels : List Pixel)
  /-- `frame_decode` of a file (R137). -/
  | frameDecode (file : List Byte)
  /-- `frame_encode` (R136). Width and height are any naturals, so that one that does not fit 32 bits can be asked for
  (R141). -/
  | frameEncode (width height : Nat) (channels colorspace : Byte) (pixels : List Pixel)
  /-- `Start` of the byte-at-a-time form (R165). -/
  | openDec
  /-- `Byte(b)` (R165). -/
  | byteDec (b : Byte)
  /-- `Finish` of the byte-at-a-time form (R165). -/
  | finishDec
  /-- `Start` of the pixel-at-a-time form (R199). -/
  | openEnc
  /-- `Pixel(px)` (R199). -/
  | pixelEnc (px : Pixel)
  /-- `Finish` of the pixel-at-a-time form (R199). -/
  | finishEnc
deriving DecidableEq, Repr

/-- The machine: one encoder, one decoder, the container around them, and the moves the host has queued. -/
structure State where
  enc   : Enc
  dec   : Dec
  frame : Frame
  inbox : List HostMove
deriving DecidableEq, Repr

/-- Reasons to stop with a fault. None: every error of the spec (R221) ends a pass and leaves a machine that goes on
(R227, R228), so it is a next state with `status` done_err, and no other fault exists (R220). -/
inductive Fault where
deriving DecidableEq, Repr

/-- Reasons to give a step no meaning. -/
inductive Refusal where
  /-- An instruction without a meaning yet; raised by `exec`'s arms only. Safe. -/
  | notModelled (mnemonic : String)
  /-- The host issued Start to an agent whose pass is busy (R231, U9: the spec says nothing is claimed about it); raised by
  the host's moves. Safe. -/
  | startDuringPass
  /-- The host sent a byte, a pixel or a Finish to an agent with no byte- or pixel-at-a-time pass open (D2, R235: no such
  move is given to the host); raised by the host's moves. Safe. -/
  | eventOutsidePass
  /-- `frame_encode` of an image whose pixel count, channel count or dimensions are not valid (R141, U2); raised by the
  host's move. Safe. -/
  | invalidEncodeInput
  /-- An input of 2^CUR_BITS elements or more, in a build with a bounded CUR_BITS (R26, U5); raised by the host's moves,
  never with the spec's own unbounded value. Safe. -/
  | inputTooLong
deriving DecidableEq, Repr

/-- The machine after power-on (R251): no pass has begun (`status` idle), no input is present, and every register holds its
start-of-pass value. Those register values are the model's (log entries 1 and 2): the spec leaves them unspecified. -/
def State.reset : State where
  enc := {
    status := .idle
    drive := .buffer
    prev := ⟨0#8, 0#8, 0#8, 255#8⟩
    run := 0#6
    cache := Vector.replicate 64 ⟨0#8, 0#8, 0#8, 0#8⟩
    px := []
    pos := 0
    out := [] }
  dec := {
    status := .idle
    drive := .buffer
    prev := ⟨0#8, 0#8, 0#8, 255#8⟩
    cache := Vector.replicate 64 ⟨0#8, 0#8, 0#8, 0#8⟩
    cur := 0
    op := .tag
    input := []
    pix := [] }
  frame := {
    status := .idle
    phase := .ready
    header := ⟨0#32, 0#32, 0#8, 0#8⟩
    file := []
    image := none }
  inbox := []

end Sys2Proof.Machine
end

