-- ==== Sys2Proof/Machine/Ops.lean ====
section
/-! DEFINITION. The named operations over registers, caches and buffers: 8-bit arithmetic and byte order (R9), the hash
(R110), the cache (R113 to R115), the start of a pass (R250), emission and append (R9), the raise of an error (R226, R227)
and the ways on from one (R228). -/

namespace Sys2Proof.Machine

/-- `u8(v) = v mod 256` for every integer v (R9). -/
def u8 (v : Int) : Byte := BitVec.ofInt 8 v

/-- `s8(v)`: the signed value, -128..127, of `u8(v)` (R9). -/
def s8 (v : Int) : Int := (u8 v).toInt

/-- `be32(v)`: four bytes, most significant first (R9, R54). -/
def be32 (v : BitVec 32) : List Byte :=
  [v.extractLsb' 24 8, v.extractLsb' 16 8, v.extractLsb' 8 8, v.extractLsb' 0 8]

/-- `from_be32(b0,b1,b2,b3) = b0*2^24 + b1*2^16 + b2*2^8 + b3` (R9, R54). -/
def fromBe32 (b0 b1 b2 b3 : Byte) : BitVec 32 :=
  BitVec.ofNat 32 (b0.toNat * 2 ^ 24 + b1.toNat * 2 ^ 16 + b2.toNat * 2 ^ 8 + b3.toNat)

/-- (0,0,0,0), the value of a cleared slot (R9, R22, R113). -/
def zeroPixel : Pixel := ⟨0#8, 0#8, 0#8, 0#8⟩

/-- (0,0,0,255), the previous pixel at the start of a pass (R22, R23, R250). -/
def initialPrev : Pixel := ⟨0#8, 0#8, 0#8, 255#8⟩

/-- `PIXEL_PACK` (R8, R55, D5): a pixel as a 32-bit word, r most significant. Not observable (log entry 13). -/
def packPixel (p : Pixel) : BitVec 32 := fromBe32 p.r p.g p.b p.a

/-- The pixel of a 32-bit word (R8, R55, D5). -/
def unpackPixel (w : BitVec 32) : Pixel :=
  ⟨w.extractLsb' 24 8, w.extractLsb' 16 8, w.extractLsb' 8 8, w.extractLsb' 0 8⟩

/-- The pixel hash (R110): `(r*3 + g*5 + b*7 + a*11) mod 64` over the naturals; the six low bits of the sum (R111). -/
def pixelHash (p : Pixel) : BitVec 6 :=
  BitVec.ofNat 6 (p.r.toNat * 3 + p.g.toNat * 5 + p.b.toNat * 7 + p.a.toNat * 11)

/-- The clear: every slot (0,0,0,0) (R113, R66). -/
def Cache.clear : Cache := Vector.replicate 64 zeroPixel

/-- The read of one whole slot (R115, R57). -/
def Cache.read (slots : Cache) (idx : BitVec 6) : Pixel := slots[idx.toNat]

/-- The write `C[hash(p)] <- p`: a pixel goes to the slot of its own hash and to no other (R114). -/
def Cache.write (slots : Cache) (p : Pixel) : Cache := slots.set (pixelHash p).toNat p

/-- The code of a cause (R221, D10). -/
def Cause.code : Cause → Nat
  | .headerShort => 1
  | .badMagic => 2
  | .endMarker => 3
  | .pixelCount => 4
  | .truncated => 5

/-- The kind of a cause (R220, R221). Truncation is a kind of its own (R223, D11). -/
def Cause.kind : Cause → ErrorKind
  | .headerShort => .formatError
  | .badMagic => .formatError
  | .endMarker => .formatError
  | .pixelCount => .formatError
  | .truncated => .truncatedStreamError

/-- The code of a pass that is over (R221): 0 for a valid result, the cause's code for an error; none while it is not. -/
def Status.code : Status → Option Nat
  | .idle => none
  | .busy => none
  | .doneOk => some 0
  | .doneErr cause => some cause.code

/-- Whether an input of n elements is one this build accepts (R26, D25): fewer than 2^CUR_BITS. -/
def admits (cfg : Config) (n : Nat) : Bool :=
  match cfg.curBits with
  | none => true
  | some w => n < 2 ^ w

/-! ### The decoder's registers -/

/-- Start of a DEC pass (R250): every register set, whatever it held. -/
def Dec.start (drive : Drive) (payload : List Byte) : Dec where
  status := .busy
  drive := drive
  prev := initialPrev
  cache := Cache.clear
  cur := 0
  op := .tag
  input := payload
  pix := []

/-- A pass that walks its own buffer is under way. -/
def Dec.running (d : Dec) : Bool := d.status == .busy && d.drive == .buffer

/-- A byte-at-a-time pass is open. -/
def Dec.listening (d : Dec) : Bool := d.status == .busy && d.drive == .stream

/-- `prev <- p` (R23). -/
def Dec.setPrev (p : Pixel) (d : Dec) : Dec := { d with prev := p }

/-- Step 1 of an iteration, `C[hash(prev)] <- prev` (R152). -/
def Dec.cachePrev (d : Dec) : Dec := { d with cache := d.cache.write d.prev }

/-- `out(prev)`: step 3, append a copy of the previous pixel (R159). -/
def Dec.outPrev (d : Dec) : Dec := { d with pix := d.pix ++ [d.prev] }

/-- n copies of the previous pixel appended (R158). -/
def Dec.outCopies (n : Nat) (d : Dec) : Dec := { d with pix := d.pix ++ List.replicate n d.prev }

/-- Step 4, `cur <- cur + n` (R160): the only way the cursor changes. -/
def Dec.advance (n : Nat) (d : Dec) : Dec := { d with cur := d.cur + n }

/-- The operand latch of the byte-at-a-time form (R165). -/
def Dec.setOp (op : Phase) (d : Dec) : Dec := { d with op := op }

/-- `raise` (R226, R227): the pass ends at once with the error, PIX is void, nothing is saved and control goes back to the
host. The other registers, which no rule reads again, stay as they stand (log entry 15). -/
def Dec.raise (cause : Cause) (d : Dec) : Dec := { d with status := .doneErr cause, pix := [] }

/-- The pass ends with its whole output (R163). After this, as after a raise, the next thing that can happen to the agent is
a Start (R228): there is no return from an error. -/
def Dec.finish (d : Dec) : Dec := { d with status := .doneOk }

/-- One iteration of the decoder's loop for an opcode of one byte, whose rule is `rule`: step 1, the rule, step 3, step 4
(R151, R152, R159, R160). It cannot be truncated (R162). -/
def Dec.oneByteOpcode (rule : Dec → Dec) (d : Dec) : Dec :=
  ((rule d.cachePrev).outPrev).advance 1

/-- One iteration for an opcode of n bytes, n = 2, 4 or 5: after step 1, `need(n)` raises TRUNCATED when
`cur + n > len(IN)` (R151, R162). -/
def Dec.longOpcode (n : Nat) (rule : Dec → Dec) (d : Dec) : Dec :=
  if d.cur + n ≤ d.input.length then ((rule d.cachePrev).outPrev).advance n
  else d.cachePrev.raise .truncated

/-- The rest of the machine around a step of the decoder. -/
def State.withDec (d : Dec) (s : State) : State := { s with dec := d }

/-! ### The encoder's registers -/

/-- Start of an ENC pass (R250): every register set, whatever it held. -/
def Enc.start (drive : Drive) (pixels : List Pixel) : Enc where
  status := .busy
  drive := drive
  prev := initialPrev
  run := 0#6
  cache := Cache.clear
  px := pixels
  pos := 0
  out := []

/-- A pass that walks its own buffer is under way. -/
def Enc.running (e : Enc) : Bool := e.status == .busy && e.drive == .buffer

/-- A pixel-at-a-time pass is open. -/
def Enc.listening (e : Enc) : Bool := e.status == .busy && e.drive == .stream

/-- `emit` of bytes, in order (R9). -/
def Enc.emit (bytes : List Byte) (e : Enc) : Enc := { e with out := e.out ++ bytes }

/-- `run <- n` (R25). -/
def Enc.setRun (n : BitVec 6) (e : Enc) : Enc := { e with run := n }

/-- `prev <- p` (R192). -/
def Enc.setPrev (p : Pixel) (e : Enc) : Enc := { e with prev := p }

/-- `C[hash(p)] <- p` (R192). -/
def Enc.cacheWrite (p : Pixel) (e : Enc) : Enc := { e with cache := e.cache.write p }

/-- The next pixel of PX (R27). -/
def Enc.nextPixel (e : Enc) : Enc := { e with pos := e.pos + 1 }

/-- The pass ends with its whole output (R193, R194: the encoder raises nothing). -/
def Enc.finish (e : Enc) : Enc := { e with status := .doneOk }

/-- The rest of the machine around a step of the encoder. -/
def State.withEnc (e : Enc) (s : State) : State := { s with enc := e }

/-! ### The container's registers -/

/-- `raise` in FRAME (R227): the call ends with the error and delivers no image. That the code is shown in a status of
FRAME's own, and that DEC's registers are not touched, is the model's choice (DESIGN CHOICE, log entry 30). -/
def Frame.raise (cause : Cause) (f : Frame) : Frame :=
  { f with status := .doneErr cause, phase := .ready, image := none }

/-- `frame_decode` has found the framing right (R137 steps 1 to 6): the header is read, and the DEC pass is awaited. The header
registers keep the fields whatever the pass then gives (DESIGN CHOICE, log entry 31). -/
def Frame.awaitDec (header : Header) (f : Frame) : Frame :=
  { f with status := .busy, phase := .decoding, header := header, image := none }

/-- `frame_encode` has a valid image (R136): the ENC pass is awaited. -/
def Frame.awaitEnc (header : Header) (f : Frame) : Frame :=
  { f with status := .busy, phase := .encoding, header := header, image := none }

/-- The file buffer is filled: by the host before a decode, by FRAME after an encode (R50). -/
def Frame.setFile (file : List Byte) (f : Frame) : Frame := { f with file := file }

/-- The call ends with a valid result: the image of a decode, none for an encode, whose result is the file. -/
def Frame.deliver (image : Option Image) (f : Frame) : Frame :=
  { f with status := .doneOk, phase := .ready, image := image }

/-- The rest of the machine around a step of the container. -/
def State.withFrame (f : Frame) (s : State) : State := { s with frame := f }

end Sys2Proof.Machine
end

