-- ==== Sys2Proof/Machine/Operands.lean ====
section
/-! DEFINITION. The operands of the delta opcodes: adding a delta to a channel (R161), and forming the deltas between two
pixels (R185). -/

namespace Sys2Proof.Machine

/-- The new value of a channel, `u8(old + delta)`: the sum wraps modulo 256 (R161, D7; log entry 10). -/
def addDelta (channel : Byte) (delta : Int) : Byte := u8 ((channel.toNat : Int) + delta)

/-- Three independent channel additions; alpha unchanged (R156, R157). -/
def addDeltas (dr dg db : Int) (p : Pixel) : Pixel :=
  ⟨addDelta p.r dr, addDelta p.g dg, addDelta p.b db, p.a⟩

/-- The difference current minus previous of one channel (R185): a signed 8-bit value with `ENC_DELTA_WRAP`, else the plain
integer difference (D8; log entry 11). -/
def channelDelta (cfg : Config) (current previous : Byte) : Int :=
  if cfg.encDeltaWrap then s8 ((current.toNat : Int) - previous.toNat)
  else (current.toNat : Int) - previous.toNat

/-- The deltas of red, green and blue (R185). -/
structure Deltas where
  dr : Int
  dg : Int
  db : Int
deriving DecidableEq, Repr

/-- `deltas(px, prev)` (R184, R185). -/
def deltas (cfg : Config) (px prev : Pixel) : Deltas :=
  ⟨channelDelta cfg px.r prev.r, channelDelta cfg px.g prev.g, channelDelta cfg px.b prev.b⟩

end Sys2Proof.Machine
end

