-- ==== Sys2Proof/Machine/Flags.lean ====
section
/-! DEFINITION. This hardware has no flags register (R33). What stands in that place are the five combinational predicates
of the encoder's tag selector, none of them stored (R182). -/

namespace Sys2Proof.Machine

/-- `eq_prev` (R182): the current pixel equals the previous one, all four channels. -/
def eqPrev (px prev : Pixel) : Bool := px == prev

/-- `hit` (R182): the one slot `hash(px)` holds the current pixel, all four channels. -/
def hit (slots : Cache) (px : Pixel) : Bool := slots.read (pixelHash px) == px

/-- `alpha_changed` (R182). -/
def alphaChanged (px prev : Pixel) : Bool := px.a != prev.a

/-- `diff_ok` (R182). -/
def diffOk (d : Deltas) : Bool :=
  (-2 ≤ d.dr && d.dr ≤ 1) && (-2 ≤ d.dg && d.dg ≤ 1) && (-2 ≤ d.db && d.db ≤ 1)

/-- `luma_ok` (R182). The two differences are plain integer differences, with no second wrap (R185). -/
def lumaOk (d : Deltas) : Bool :=
  (-32 ≤ d.dg && d.dg ≤ 31) && (-8 ≤ d.dr - d.dg && d.dr - d.dg ≤ 7) && (-8 ≤ d.db - d.dg && d.db - d.dg ≤ 7)

end Sys2Proof.Machine
end

