-- ==== Sys2Proof/Machine/Delta.lean ====
section
/-! DEFINITION. The two opcodes that carry deltas against the previous pixel: DIFF and LUMA. Their decode rules (R156,
R157), and the opcode the encoder emits for each (R189, R190). -/

namespace Sys2Proof.Machine

/-- R156: each colour channel plus its delta; alpha unchanged. -/
def applyDiff (dr dg db : Int) (d : Dec) : Dec := d.setPrev (addDeltas dr dg db d.prev)

/-- R157: the red delta is dg + drg and the blue delta dg + dbg; alpha unchanged. -/
def applyLuma (dg drg dbg : Int) (d : Dec) : Dec := d.setPrev (addDeltas (dg + drg) dg (dg + dbg) d.prev)

/-- DIFF, decode (R156): 1 byte. -/
def execDiff (dr dg db : Int) (s : State) : Host.Outcome State Fault Refusal :=
  .next (s.withDec (s.dec.oneByteOpcode (applyDiff dr dg db)))

/-- LUMA, decode (R157): 2 bytes. -/
def execLuma (dg drg dbg : Int) (s : State) : Host.Outcome State Fault Refusal :=
  .next (s.withDec (s.dec.longOpcode 2 (applyLuma dg drg dbg)))

/-- DIFF, emission (R189): the three deltas. -/
def emitDiff (d : Deltas) : Instr := .diff d.dr d.dg d.db

/-- LUMA, emission (R190): the green delta, and the red and blue deltas less the green. -/
def emitLuma (d : Deltas) : Instr := .luma d.dg (d.dr - d.dg) (d.db - d.dg)

end Sys2Proof.Machine
end

