-- ==== Sys2Proof/Machine/Literal.lean ====
section
/-! DEFINITION. The two opcodes that carry channel values: RGBA and RGB. Their decode rules (R153, R154), and the opcode
the encoder emits for each (R188, R191). -/

namespace Sys2Proof.Machine

/-- R153: all four channels are replaced. -/
def applyRgba (r g b a : Byte) (d : Dec) : Dec := d.setPrev ⟨r, g, b, a⟩

/-- R154: red, green and blue are replaced, alpha is that of the previous pixel. -/
def applyRgb (r g b : Byte) (d : Dec) : Dec := d.setPrev ⟨r, g, b, d.prev.a⟩

/-- RGBA, decode (R153): 5 bytes. -/
def execRgba (r g b a : Byte) (s : State) : Host.Outcome State Fault Refusal :=
  .next (s.withDec (s.dec.longOpcode 5 (applyRgba r g b a)))

/-- RGB, decode (R154): 4 bytes. -/
def execRgb (r g b : Byte) (s : State) : Host.Outcome State Fault Refusal :=
  .next (s.withDec (s.dec.longOpcode 4 (applyRgb r g b)))

/-- RGBA, emission (R188): the four channels of the current pixel. -/
def emitRgba (px : Pixel) : Instr := .rgba px.r px.g px.b px.a

/-- RGB, emission (R191): the colour channels of the current pixel; alpha is not transmitted. -/
def emitRgb (px : Pixel) : Instr := .rgb px.r px.g px.b

end Sys2Proof.Machine
end

