-- ==== Sys2Proof/Machine/Recall.lean ====
section
/-! DEFINITION. INDEX, the opcode that recalls a pixel from the cache: its decode rule (R155), and the opcode the encoder
emits for it (R187). -/

namespace Sys2Proof.Machine

/-- R155: the previous pixel becomes exactly the pixel of the slot, read after the step-1 write of this iteration (R62 a,
R255). -/
def applyIndex (idx : BitVec 6) (d : Dec) : Dec := d.setPrev (d.cache.read idx)

/-- INDEX, decode (R155): 1 byte. -/
def execIndex (idx : BitVec 6) (s : State) : Host.Outcome State Fault Refusal :=
  .next (s.withDec (s.dec.oneByteOpcode (applyIndex idx)))

/-- INDEX, emission (R187): the hash of the current pixel. -/
def emitIndex (px : Pixel) : Instr := .index (pixelHash px)

end Sys2Proof.Machine
end

