-- ==== Sys2Proof/Machine/Run.lean ====
section
/-! DEFINITION. RUN, the opcode that repeats the previous pixel: its decode rule (R158), and the encoder's run-length
accumulator (R25, R186, R199). -/

namespace Sys2Proof.Machine

/-- R158: n - 1 copies here; the common step 3 appends one more. The previous pixel is not changed. -/
def applyRun (n : Nat) (d : Dec) : Dec := d.outCopies (n - 1)

/-- RUN, decode (R158): 1 byte. -/
def execRun (n : Nat) (s : State) : Host.Outcome State Fault Refusal :=
  .next (s.withDec (s.dec.oneByteOpcode (applyRun n)))

/-- The most pixels one RUN byte stands for, `RUN_MAX` (R7, R92). -/
def runMax : Nat := 62

/-- RUN, emission (R186): the opcode of a run of n pixels. -/
def emitRun (n : Nat) : Instr := .run n

/-- The RUN opcodes of a stretch of k pixels (R184, R186): while k > 0, one opcode for the lesser of k and 62. `fuel` bounds
the iterations; k of them are always enough. -/
def runOpcodes (fuel k : Nat) : List Instr :=
  match fuel with
  | 0 => []
  | fuel + 1 => if k = 0 then [] else emitRun (min k runMax) :: runOpcodes fuel (k - min k runMax)

/-- A pending run is emitted and the counter returns to 0; nothing happens when there is none (R25, R199, R259). -/
def Enc.flush (f : DiffFields) (e : Enc) : Enc :=
  if e.run = 0#6 then e else (e.emit (encode f (emitRun e.run.toNat))).setRun 0#6

/-- One more pixel equal to the previous one (R25, R199): the counter goes up, and at 62 a RUN byte is emitted and it
returns to 0 in the same step. -/
def Enc.extendRun (f : DiffFields) (e : Enc) : Enc :=
  if e.run + 1#6 = BitVec.ofNat 6 runMax then (e.emit (encode f (emitRun runMax))).setRun 0#6
  else e.setRun (e.run + 1#6)

end Sys2Proof.Machine
end

