-- ==== Sys2Proof/Machine/Dispatch.lean ====
section
/-! DEFINITION. The meaning of every opcode: one iteration of the decoder's loop (R151), one arm per constructor. -/

namespace Sys2Proof.Machine

def exec (i : Instr) (s : State) : Host.Outcome State Fault Refusal :=
  match i with
  | .rgba r g b a => Sys2Proof.Machine.execRgba r g b a s
  | .rgb r g b => Sys2Proof.Machine.execRgb r g b s
  | .index idx => Sys2Proof.Machine.execIndex idx s
  | .diff dr dg db => Sys2Proof.Machine.execDiff dr dg db s
  | .luma dg drg dbg => Sys2Proof.Machine.execLuma dg drg dbg s
  | .run n => Sys2Proof.Machine.execRun n s

end Sys2Proof.Machine
end

