-- ==== Sys2Proof/Machine/Decoder.lean ====
section
/-! DEFINITION. The decoder DEC as a whole: one turn of its loop (R151), the pass `dec_payload` as a function (R150), and the
byte-at-a-time form (R165). The opcode rules themselves are `applyRgba`, `applyRgb`, `applyIndex`, `applyDiff`, `applyLuma`
and `applyRun`; `exec` runs the same rules on the machine. -/

namespace Sys2Proof.Machine

/-- The rule of an opcode (R153 to R158), without the common steps. -/
def applyInstr : Instr → Dec → Dec
  | .rgba r g b a => applyRgba r g b a
  | .rgb r g b => applyRgb r g b
  | .index idx => applyIndex idx
  | .diff dr dg db => applyDiff dr dg db
  | .luma dg drg dbg => applyLuma dg drg dbg
  | .run n => applyRun n

/-- One iteration of the loop of R151 for a given opcode: steps 1 to 4. -/
def Dec.iterate (i : Instr) (d : Dec) : Dec :=
  if i.length = 1 then d.oneByteOpcode (applyInstr i) else d.longOpcode i.length (applyInstr i)

/-- What the decoder reads at its cursor: the opcode there, or why there is none. -/
def Dec.fetch (f : DiffFields) (d : Dec) : Except DecodeError (Instr × List Byte) :=
  decode f (d.input.drop d.cur)

/-- The truncated iteration (R162): step 1 is made, then `need` raises before any operand byte is used. -/
def Dec.truncate (d : Dec) : Dec := d.cachePrev.raise .truncated

/-- The loop of R151. `fuel` bounds the iterations; one more than the bytes of IN are always enough (R164). -/
def decLoop (f : DiffFields) (fuel : Nat) (d : Dec) : Except Cause (List Pixel) :=
  match fuel with
  | 0 => .ok d.pix
  | fuel + 1 =>
    match d.fetch f with
    | .ok (i, _) => decLoop f fuel (d.iterate i)
    | .error .endOfInput => .ok d.pix
    | .error (.truncated _) => .error .truncated

/-- `dec_payload(IN)` (R150, R151): the pixels of a payload, or the one error. It takes no width and no height (D16) and
consumes the whole payload (R163, D24). -/
def decPayload (cfg : Config) (payload : List Byte) : Except Cause (List Pixel) :=
  decLoop cfg.diffFields (payload.length + 1) (Dec.start .buffer payload)

/-! ### The byte-at-a-time form (R165) -/

/-- Execute an opcode whose tag byte and operand bytes are complete, then `out(prev)`. The tag byte and the operand bytes
always assemble when the latch is as R165 leaves it (log entry 21). -/
def Dec.completeOpcode (f : DiffFields) (tagByte : Byte) (operands : List Byte) (d : Dec) : Dec :=
  match assemble f tagByte operands with
  | some i => (applyInstr i d).outPrev
  | none => d

/-- `on Byte(b)` (R165). An operand byte is never classified. -/
def Dec.byteEvent (f : DiffFields) (b : Byte) (d : Dec) : Dec :=
  match d.op with
  | .tag =>
    if operandCount (classify b) = 0 then d.cachePrev.completeOpcode f b []
    else d.cachePrev.setOp (.operands b (operandCount (classify b)) [])
  | .operands tagByte need got =>
    if (got ++ [b]).length < need then d.setOp (.operands tagByte need (got ++ [b]))
    else (d.completeOpcode f tagByte (got ++ [b])).setOp .tag

/-- `on Finish` (R165): the pass succeeds when no opcode is open, and is truncated otherwise. -/
def Dec.finishEvent (d : Dec) : Dec :=
  match d.op with
  | .tag => d.finish
  | .operands _ _ _ => d.raise .truncated

/-- The result of a pass that is over, as `dec_payload` gives it (R31). -/
def Dec.result (d : Dec) : Except Cause (List Pixel) :=
  match d.status with
  | .doneErr cause => .error cause
  | _ => .ok d.pix

/-- The byte-at-a-time form run on a whole payload: Start, one event per byte, Finish (R165). -/
def decStream (cfg : Config) (payload : List Byte) : Except Cause (List Pixel) :=
  ((payload.foldl (fun d b => d.byteEvent cfg.diffFields b) (Dec.start .stream [])).finishEvent).result

end Sys2Proof.Machine
end

