-- ==== Sys2Proof/Machine/Encoder.lean ====
section
/-! DEFINITION. The encoder ENC: the tag selector (R183), the pixel step with its update (R192, R199), the end of input
(R193), and the pass `enc_payload` in its look-ahead form (R184) and in its pixel-at-a-time form (R199). -/

namespace Sys2Proof.Machine

/-- Arms 2 to 6 of the tag selector, for a pixel that differs from the previous one (R183): INDEX, RGBA, DIFF, LUMA, RGB,
the first that applies. -/
def selectOpcode (cfg : Config) (slots : Cache) (prev px : Pixel) : Instr :=
  if hit slots px then emitIndex px
  else if alphaChanged px prev then emitRgba px
  else if diffOk (deltas cfg px prev) then emitDiff (deltas cfg px prev)
  else if lumaOk (deltas cfg px prev) then emitLuma (deltas cfg px prev)
  else emitRgb px

/-- The update after a pixel that is not absorbed by a run: `prev <- px; C[hash(px)] <- px` (R192). -/
def Enc.update (px : Pixel) (e : Enc) : Enc := (e.setPrev px).cacheWrite px

/-- The cache write for a pixel absorbed by a run (R192), made when `ENC_RUN_CACHE_WRITE` says so (D9; log entry 12). -/
def Enc.runUpdate (cfg : Config) (px : Pixel) (e : Enc) : Enc :=
  if cfg.encRunCacheWrite then e.cacheWrite px else e

/-- `on Pixel(px)` (R199): extend the run, or emit the pending run and then the opcode of the pixel, and update. The slot is
read before it is written (R62 b, R256). -/
def Enc.pixelEvent (cfg : Config) (px : Pixel) (e : Enc) : Enc :=
  if eqPrev px e.prev then (e.extendRun cfg.diffFields).runUpdate cfg px
  else ((e.flush cfg.diffFields).emit (encode cfg.diffFields (selectOpcode cfg e.cache e.prev px))).update px

/-- `on Finish` (R199, R193, R259): the pending run is emitted and the pass is over. -/
def Enc.finishEvent (cfg : Config) (e : Enc) : Enc := (e.flush cfg.diffFields).finish

/-- The pixel-at-a-time form run on a whole pixel sequence: Start, one event per pixel, Finish (R199). -/
def encStream (cfg : Config) (pixels : List Pixel) : List Byte :=
  ((pixels.foldl (fun e px => e.pixelEvent cfg px) (Enc.start .stream [])).finishEvent cfg).out

/-- How many pixels at the front equal `prev` (R184's k). -/
def stretch (prev : Pixel) (pixels : List Pixel) : Nat := (pixels.takeWhile (· == prev)).length

/-- The loop of R184, with its look-ahead over a run. `fuel` bounds the iterations; one per pixel is always enough. -/
def encLoop (cfg : Config) (fuel : Nat) (prev : Pixel) (slots : Cache) (pixels : List Pixel) : List Byte :=
  match fuel, pixels with
  | 0, _ => []
  | _ + 1, [] => []
  | fuel + 1, px :: rest =>
    if eqPrev px prev then
      encodeAll cfg.diffFields (runOpcodes (stretch prev (px :: rest)) (stretch prev (px :: rest)))
        ++ encLoop cfg fuel prev (if cfg.encRunCacheWrite then slots.write prev else slots)
            ((px :: rest).drop (stretch prev (px :: rest)))
    else
      encode cfg.diffFields (selectOpcode cfg slots prev px) ++ encLoop cfg fuel px (slots.write px) rest

/-- `enc_payload(PX)` (R180, R184): the payload of a pixel sequence. Total; it cannot fail (R194). -/
def encPayload (cfg : Config) (pixels : List Pixel) : List Byte :=
  encLoop cfg pixels.length initialPrev Cache.clear pixels

end Sys2Proof.Machine
end

