-- ==== Sys2Proof/Machine/Container.lean ====
section
/-! DEFINITION. The container, unit FRAME: header and end marker (R130 to R135), and `frame_encode` and `frame_decode` as
functions (R136 to R141). -/

namespace Sys2Proof.Machine

/-- The four characters `qoif` (R130, R133). Their byte values assume ASCII (log entry 19). -/
def magic : List Byte := [0x71#8, 0x6F#8, 0x69#8, 0x66#8]

/-- The end marker, a byte string and not an integer (R134, R54). -/
def endMarker : List Byte := [0x00#8, 0x00#8, 0x00#8, 0x00#8, 0x00#8, 0x00#8, 0x00#8, 0x01#8]

/-- `serialize_header` (R131): 14 bytes. -/
def serializeHeader (h : Header) : List Byte :=
  magic ++ be32 h.width ++ be32 h.height ++ [h.channels] ++ [h.colorspace]

/-- `parse_header` (R132): the header fields and the remaining bytes; HEADER_SHORT for fewer than 14 bytes, BAD_MAGIC for
another magic. Nothing else is checked. -/
def parseHeader : List Byte → Except Cause (Header × List Byte)
  | m0 :: m1 :: m2 :: m3 :: w0 :: w1 :: w2 :: w3 :: h0 :: h1 :: h2 :: h3 :: channels :: colorspace :: rest =>
    if [m0, m1, m2, m3] = magic then
      .ok (⟨fromBe32 w0 w1 w2 w3, fromBe32 h0 h1 h2 h3, channels, colorspace⟩, rest)
    else .error .badMagic
  | _ => .error .headerShort

/-- Steps 1 to 6 of `frame_decode` (R137): the header and the payload, or the first framing error. A file of 14 to 21 bytes
has no room for a marker (R138, D13); the marker is the last 8 bytes, found by position (R134). -/
def frameOpen (file : List Byte) : Except Cause (Header × List Byte) :=
  match parseHeader file with
  | .error cause => .error cause
  | .ok (header, rest) =>
    if file.length < 22 then .error .endMarker
    else if file.drop (file.length - 8) = endMarker then .ok (header, rest.take (file.length - 22))
    else .error .endMarker

/-- Steps 8 and 9 of `frame_decode` (R137, R139): the product is taken over the naturals and does not wrap. -/
def frameClose (header : Header) (pixels : List Pixel) : Except Cause Image :=
  if pixels.length = header.width.toNat * header.height.toNat then .ok ⟨header, pixels⟩ else .error .pixelCount

/-- `frame_decode(bytes)` (R137). -/
def frameDecode (cfg : Config) (file : List Byte) : Except Cause Image :=
  match frameOpen file with
  | .error cause => .error cause
  | .ok (header, payload) =>
    match decPayload cfg payload with
    | .error cause => .error cause
    | .ok pixels => frameClose header pixels

/-- The textual form of the pseudo-item HEADER (R97); END has no operands. Neither is an opcode, and DEC never sees one. -/
def Header.render (h : Header) : String :=
  "HEADER " ++ toString h.width.toNat ++ "," ++ toString h.height.toNat ++ "," ++ toString h.channels.toNat ++ "," ++
    toString h.colorspace.toNat

/-- The listing of a file (R96, R97): its header, its opcodes, its end marker. -/
def renderFile (h : Header) (is : List Instr) : String := h.render ++ "; " ++ renderAll is ++ "; END"

/-- The precondition of `frame_encode` (R136, R141): dimensions that fit 32 bits, as many pixels as they say, and 3 or 4
channels. -/
def encodable (width height : Nat) (channels : Byte) (pixels : List Pixel) : Bool :=
  width < 2 ^ 32 && height < 2 ^ 32 && pixels.length == width * height && (channels == 3#8 || channels == 4#8)

/-- The file around a payload (R136): header, payload, end marker. -/
def wrapPayload (header : Header) (payload : List Byte) : List Byte := serializeHeader header ++ payload ++ endMarker

/-- The header of an image to encode. -/
def headerOf (width height : Nat) (channels colorspace : Byte) : Header :=
  ⟨BitVec.ofNat 32 width, BitVec.ofNat 32 height, channels, colorspace⟩

/-- `frame_encode` (R136); no result for invalid input (R141, D14). -/
def frameEncode (cfg : Config) (width height : Nat) (channels colorspace : Byte) (pixels : List Pixel) :
    Option (List Byte) :=
  if encodable width height channels pixels then
    some (wrapPayload (headerOf width height channels colorspace) (encPayload cfg pixels))
  else none

end Sys2Proof.Machine
end

