-- ==== Sys2Proof/Machine/Turns.lean ====
section
/-! DEFINITION. What one step of the machine is: whose turn it is, and what each agent does in its turn. -/

namespace Sys2Proof.Machine

/-- A turn of DEC on its buffer (R151): fetch at the cursor and run the opcode, or end the pass when IN is exhausted (R163),
or raise TRUNCATED (R162). -/
def decTurn (cfg : Config) (s : State) : Host.Outcome State Fault Refusal :=
  match s.dec.fetch cfg.diffFields with
  | .ok (i, _) => exec i s
  | .error .endOfInput => .next (s.withDec s.dec.finish)
  | .error (.truncated _) => .next (s.withDec s.dec.truncate)

/-- A turn of ENC on its buffer (R184, R199): the next pixel of PX (R27), or the end of input (R193). -/
def encTurn (cfg : Config) (s : State) : State :=
  match s.enc.px[s.enc.pos]? with
  | some px => s.withEnc ((s.enc.pixelEvent cfg px).nextPixel)
  | none => s.withEnc (s.enc.finishEvent cfg)

/-- FRAME after the DEC pass it began (R137 steps 7 to 9): TRUNCATED is passed on unchanged (R222), the pixel count is
checked, the image is returned. When FRAME raises PIXEL_COUNT, DEC's own pass has succeeded: its status stays done_ok and
PIX keeps the pixels, while FRAME's status is the error and no image is delivered (DESIGN CHOICE, log entry 30). -/
def frameAfterDec (s : State) : Frame :=
  match s.dec.status with
  | .doneOk =>
    match frameClose s.frame.header s.dec.pix with
    | .ok image => s.frame.deliver (some image)
    | .error cause => s.frame.raise cause
  | .doneErr cause => s.frame.raise cause
  | .idle => s.frame
  | .busy => s.frame

/-- FRAME after the ENC pass it began (R136): the payload gets its header and end marker. -/
def frameAfterEnc (s : State) : Frame :=
  match s.enc.status with
  | .doneOk => (s.frame.setFile (wrapPayload s.frame.header s.enc.out)).deliver none
  | .doneErr cause => s.frame.raise cause
  | .idle => s.frame
  | .busy => s.frame

/-- `frame_decode` up to the DEC pass (R137 steps 1 to 6): a framing error ends the call without DEC being started. The header
registers take the fields that step 3 reads only when steps 4 and 5 have passed too: after END_MARKER, as after HEADER_SHORT
and BAD_MAGIC, they hold what they held before the call (DESIGN CHOICE, log entry 31). -/
def beginFrameDecode (file : List Byte) (s : State) : State :=
  match frameOpen file with
  | .error cause => s.withFrame ((s.frame.setFile file).raise cause)
  | .ok (header, payload) =>
    (s.withDec (Dec.start .buffer payload)).withFrame ((s.frame.setFile file).awaitDec header)

/-- A move of the host (R235, D2). Start to a busy agent is refused (R231, U9), and so is an event to an agent that has no
byte- or pixel-at-a-time pass open, an invalid image (R141), and an input too long for a bounded build (R26). -/
def hostMove (cfg : Config) (move : HostMove) (s : State) : Host.Outcome State Fault Refusal :=
  match move with
  | .startDec payload =>
    if s.dec.status = .busy then .refused .startDuringPass
    else if admits cfg payload.length then .next (s.withDec (Dec.start .buffer payload))
    else .refused .inputTooLong
  | .startEnc pixels =>
    if s.enc.status = .busy then .refused .startDuringPass
    else if admits cfg pixels.length then .next (s.withEnc (Enc.start .buffer pixels))
    else .refused .inputTooLong
  | .frameDecode file =>
    if s.dec.status = .busy then .refused .startDuringPass
    else if admits cfg file.length then .next (beginFrameDecode file s)
    else .refused .inputTooLong
  | .frameEncode width height channels colorspace pixels =>
    if s.enc.status = .busy then .refused .startDuringPass
    else if encodable width height channels pixels = false then .refused .invalidEncodeInput
    else if admits cfg pixels.length then
      .next ((s.withEnc (Enc.start .buffer pixels)).withFrame
        (s.frame.awaitEnc (headerOf width height channels colorspace)))
    else .refused .inputTooLong
  | .openDec =>
    if s.dec.status = .busy then .refused .startDuringPass else .next (s.withDec (Dec.start .stream []))
  | .byteDec b =>
    if s.dec.listening then .next (s.withDec (s.dec.byteEvent cfg.diffFields b)) else .refused .eventOutsidePass
  | .finishDec =>
    if s.dec.listening then .next (s.withDec s.dec.finishEvent) else .refused .eventOutsidePass
  | .openEnc =>
    if s.enc.status = .busy then .refused .startDuringPass else .next (s.withEnc (Enc.start .stream []))
  | .pixelEnc px =>
    if s.enc.listening then .next (s.withEnc (s.enc.pixelEvent cfg px)) else .refused .eventOutsidePass
  | .finishEnc =>
    if s.enc.listening then .next (s.withEnc (s.enc.finishEvent cfg)) else .refused .eventOutsidePass

/-- The host's turn: its next move, or, when it makes none, nothing happens (log entry 4). -/
def hostTurn (cfg : Config) (s : State) : Host.Outcome State Fault Refusal :=
  match s.inbox with
  | [] => .next s
  | move :: rest => hostMove cfg move { s with inbox := rest }

/-- One step of the machine, for any values of the parameters: DEC if its pass is running, else ENC if its pass is, else
FRAME if it waits for a pass, else the host (log entry 5). -/
def stepWith (cfg : Config) (s : State) : Host.Outcome State Fault Refusal :=
  if s.dec.running then decTurn cfg s
  else if s.enc.running then .next (encTurn cfg s)
  else
    match s.frame.phase with
    | .decoding => .next (s.withFrame (frameAfterDec s))
    | .encoding => .next (s.withFrame (frameAfterEnc s))
    | .ready => hostTurn cfg s

/-- IN with some bytes laid over it from an address on; whatever lay below that address and beyond the bytes stays. -/
def layBytes (address : Nat) (bytes input : List Byte) : List Byte :=
  (input.take address ++ List.replicate (address - input.length) 0#8) ++ bytes ++ input.drop (address + bytes.length)

/-- The decoder with an opcode's bytes at its cursor, in a pass on its buffer. -/
def Dec.withOpcodeBytes (bytes : List Byte) (d : Dec) : Dec :=
  { d with status := .busy, drive := .buffer, input := layBytes d.cur bytes d.input }

end Sys2Proof.Machine
end

