-- ==== Sys2Proof/Machine/Step.lean ====
section
/-! DEFINITION. The machine's step, with this spec's values of the parameters, and the host's way to place an opcode. -/

namespace Sys2Proof.Machine

/-- One step of the machine. -/
def step (s : State) : Host.Outcome State Fault Refusal := stepWith Config.spec s

/-- The state with an instruction's bytes where the decoder fetches its next opcode: at the cursor, in a buffered pass that
is under way. It stands for the host's filling of IN and its Start (log entry 3). -/
def State.withFetchWord (s : State) (nbits w : Nat) : State :=
  s.withDec (s.dec.withOpcodeBytes (tableBytes nbits w))

end Sys2Proof.Machine
end

