-- ==== Sys2Proof/Safety.lean ====
section
/-! DEFINITION. The terms claims are stated in: the invariant of the machine, whose turn it is, what an iteration of the
decoder leaves alone, and runs of several steps. -/

namespace Sys2Proof.Machine

/-- R118: every slot holds (0,0,0,0) or a pixel whose hash is the slot's index. -/
abbrev Cache.Hashed (slots : Cache) : Prop :=
  ∀ idx : BitVec 6, slots.read idx = zeroPixel ∨ pixelHash (slots.read idx) = idx

/-- R165, R32 b: an open latch holds a tag byte that calls for operands, the number it calls for, and fewer than that
received. -/
abbrev Phase.Sound : Phase → Prop
  | .tag => True
  | .operands tagByte need got => need = operandCount (classify tagByte) ∧ got.length < need

/-- What every run keeps of the encoder. -/
structure Enc.Inv (e : Enc) : Prop where
  /-- R118. -/
  cacheHashed : e.cache.Hashed
  /-- R25: between steps the run counter is in 0..61. -/
  runInRange : e.run.toNat ≤ 61
  /-- R27: the position stays within PX. -/
  posInRange : e.pos ≤ e.px.length
  /-- R192: only the initial (0,0,0,255) can be the previous pixel without being in the cache. -/
  prevCached : e.prev = initialPrev ∨ e.cache.read (pixelHash e.prev) = e.prev
  /-- R194: the encoder raises nothing. -/
  noError : ∀ cause, e.status ≠ .doneErr cause

/-- What every run keeps of the decoder. -/
structure Dec.Inv (d : Dec) : Prop where
  /-- R118. -/
  cacheHashed : d.cache.Hashed
  /-- R165. -/
  latchSound : d.op.Sound
  /-- R26: the cursor is bounded by the length of IN. -/
  curInRange : d.cur ≤ d.input.length
  /-- R222: the decoder raises TRUNCATED and nothing else. -/
  onlyTruncated : ∀ cause, d.status = .doneErr cause → cause = .truncated
  /-- R227: there is no partial output. -/
  noPartialOutput : ∀ cause, d.status = .doneErr cause → d.pix = []

/-- What every run keeps of the container and of its waiting for the other two. The container's status is the model's choice
(log entry 30). -/
structure State.FrameInv (s : State) : Prop where
  /-- FRAME is busy exactly while it waits. -/
  busyIffWaiting : s.frame.status = .busy ↔ s.frame.phase ≠ .ready
  /-- R139: an image that was returned has width x height pixels. -/
  countMatches : ∀ image, s.frame.image = some image →
    image.pixels.length = image.header.width.toNat * image.header.height.toNat
  /-- R227: a call that failed returns no image. -/
  noPartialImage : ∀ cause, s.frame.status = .doneErr cause → s.frame.image = none
  /-- R137: FRAME waits for a DEC pass that has begun, on a buffer. -/
  decBegun : s.frame.phase = .decoding → s.dec.drive = .buffer ∧ s.dec.status ≠ .idle
  /-- R136: FRAME waits for an ENC pass that has begun, on a buffer. -/
  encBegun : s.frame.phase = .encoding → s.enc.drive = .buffer ∧ s.enc.status ≠ .idle

/-- The invariant of the machine. -/
structure State.Inv (s : State) : Prop where
  enc : s.enc.Inv
  dec : s.dec.Inv
  frame : s.FrameInv

/-- It is the host's turn: no pass walks a buffer and FRAME waits for none. -/
abbrev State.HostsTurn (s : State) : Prop :=
  s.dec.running = false ∧ s.enc.running = false ∧ s.frame.phase = .ready

/-- It is ENC's turn, and px is the pixel it takes. -/
abbrev State.EncTakes (s : State) (px : Pixel) : Prop :=
  s.dec.running = false ∧ s.enc.running = true ∧ s.enc.px[s.enc.pos]? = some px

/-- What an iteration of the decoder leaves as it was, whatever its opcode: the encoder, the container, the host's moves, and
of the decoder its input, its drive, its latch and its status. -/
abbrev State.SameAround (s t : State) : Prop :=
  t.enc = s.enc ∧ t.frame = s.frame ∧ t.inbox = s.inbox ∧
  t.dec.input = s.dec.input ∧ t.dec.drive = s.dec.drive ∧ t.dec.op = s.dec.op ∧ t.dec.status = s.dec.status

/-- The decoder's cache after step 1 of an iteration (R152): the slot of the previous pixel's hash holds the previous pixel,
every other slot is as before. -/
abbrev Dec.CachedPrev (d : Dec) (slots : Cache) : Prop :=
  ∀ idx : BitVec 6, slots.read idx = if idx = pixelHash d.prev then d.prev else d.cache.read idx

/-- The encoder's cache after the write of a pixel (R192). -/
abbrev Enc.Cached (e : Enc) (px : Pixel) (slots : Cache) : Prop :=
  ∀ idx : BitVec 6, slots.read idx = if idx = pixelHash px then px else e.cache.read idx

/-- What a pixel step of the encoder leaves as it was: the decoder, the container, the host's moves, and of the encoder its
input, its drive and its status; the position goes up by one (R27). -/
abbrev State.PixelTaken (s t : State) : Prop :=
  t.dec = s.dec ∧ t.frame = s.frame ∧ t.inbox = s.inbox ∧
  t.enc.px = s.enc.px ∧ t.enc.drive = s.enc.drive ∧ t.enc.status = s.enc.status ∧ t.enc.pos = s.enc.pos + 1

/-- The byte of a pending run, if there is one (R199): `0xC0 | (run - 1)`. -/
abbrev pendingBytes (run : BitVec 6) : List Byte :=
  if run = 0#6 then [] else [0xC0#8 ||| (run - 1#6).setWidth 8]

/-- R250: the decoder at the start of a pass on a payload, fed in a given way. -/
abbrev Dec.AtStart (d : Dec) (drive : Drive) (payload : List Byte) : Prop :=
  d.prev = ⟨0#8, 0#8, 0#8, 255#8⟩ ∧ (∀ idx : BitVec 6, d.cache.read idx = ⟨0#8, 0#8, 0#8, 0#8⟩) ∧
  d.cur = 0 ∧ d.op = .tag ∧ d.pix = [] ∧ d.status = .busy ∧ d.drive = drive ∧ d.input = payload

/-- R250: the encoder at the start of a pass on some pixels, fed in a given way. -/
abbrev Enc.AtStart (e : Enc) (drive : Drive) (pixels : List Pixel) : Prop :=
  e.prev = ⟨0#8, 0#8, 0#8, 255#8⟩ ∧ (∀ idx : BitVec 6, e.cache.read idx = ⟨0#8, 0#8, 0#8, 0#8⟩) ∧
  e.run = 0#6 ∧ e.out = [] ∧ e.status = .busy ∧ e.drive = drive ∧ e.px = pixels ∧ e.pos = 0

/-- R162, R227: what the raise of TRUNCATED leaves of the machine: the error, no pixels, the previous pixel and the cursor
as they were, step 1 of the iteration made (R152 d), and everything around the decoder unchanged. -/
abbrev State.TruncatedFrom (s t : State) : Prop :=
  t.dec.status = .doneErr .truncated ∧ t.dec.pix = [] ∧ t.dec.prev = s.dec.prev ∧ t.dec.cur = s.dec.cur ∧
  s.dec.CachedPrev t.dec.cache ∧ t.dec.input = s.dec.input ∧ t.dec.drive = s.dec.drive ∧ t.dec.op = s.dec.op ∧
  t.enc = s.enc ∧ t.frame = s.frame ∧ t.inbox = s.inbox

/-- k steps of the machine lead from s to t. -/
abbrev Reaches (k : Nat) (s t : State) : Prop := Host.Core.run Sys2Proof.core k s = .next t

end Sys2Proof.Machine
end

