-- ==== Sys2Proof/Certificates/Slice0/Obligations.lean ====
section
/-! DEFINITION. What is claimed of the model, for the provers. Each docstring names the rule of the spec it rests on. -/

open Sys2Proof Sys2Proof.Machine

/-! ### Reset and start -/

/-- R251: after power-on no pass has begun (`status` idle). The register values are the model's (log entries 1 and 2) and
nothing is claimed of them here. That the container has a status at all is the model's choice (log entry 30). -/
def Obligations.PowerOnStatusIsIdle : Prop :=
  State.reset.enc.status = .idle ∧ State.reset.dec.status = .idle ∧ State.reset.frame.status = .idle

/-- R250: every pass of ENC and of DEC, however it is begun, begins with every register at its start value. What stands around
that is the model's choice: that the host begins a pass by a queued move (log entry 3), that the byte- and pixel-at-a-time
forms begin with an empty input (log entry 20), that the container's framing check and the Start are one step (log
entry 29), and that a Start without the container leaves the container as it was (log entry 30). -/
def Obligations.StartSetsEveryRegister : Prop :=
  ∀ (s : State) (rest : List HostMove), s.HostsTurn →
    (∀ payload, s.inbox = .startDec payload :: rest → s.dec.status ≠ .busy →
      ∃ t, step s = .next t ∧ t.dec.AtStart .buffer payload ∧ t.enc = s.enc ∧ t.frame = s.frame ∧ t.inbox = rest) ∧
    (s.inbox = .openDec :: rest → s.dec.status ≠ .busy →
      ∃ t, step s = .next t ∧ t.dec.AtStart .stream [] ∧ t.enc = s.enc ∧ t.frame = s.frame ∧ t.inbox = rest) ∧
    (∀ file header payload, s.inbox = .frameDecode file :: rest → s.dec.status ≠ .busy →
      frameOpen file = .ok (header, payload) →
      ∃ t, step s = .next t ∧ t.dec.AtStart .buffer payload ∧ t.enc = s.enc ∧ t.inbox = rest) ∧
    (∀ pixels, s.inbox = .startEnc pixels :: rest → s.enc.status ≠ .busy →
      ∃ t, step s = .next t ∧ t.enc.AtStart .buffer pixels ∧ t.dec = s.dec ∧ t.frame = s.frame ∧ t.inbox = rest) ∧
    (s.inbox = .openEnc :: rest → s.enc.status ≠ .busy →
      ∃ t, step s = .next t ∧ t.enc.AtStart .stream [] ∧ t.dec = s.dec ∧ t.frame = s.frame ∧ t.inbox = rest) ∧
    (∀ width height channels colorspace pixels,
      s.inbox = .frameEncode width height channels colorspace pixels :: rest → s.enc.status ≠ .busy →
      encodable width height channels pixels = true →
      ∃ t, step s = .next t ∧ t.enc.AtStart .buffer pixels ∧ t.dec = s.dec ∧ t.inbox = rest)

/-! ### Encoding -/

/-- R82, R90: the class of every first byte, and the length of an opcode of each class. -/
def Obligations.FirstByteMapAndLengths : Prop :=
  (∀ b : Byte,
    (b.toNat ≤ 0x3F → classify b = .index) ∧
    (0x40 ≤ b.toNat ∧ b.toNat ≤ 0x7F → classify b = .diff) ∧
    (0x80 ≤ b.toNat ∧ b.toNat ≤ 0xBF → classify b = .luma) ∧
    (0xC0 ≤ b.toNat ∧ b.toNat ≤ 0xFD → classify b = .run) ∧
    (b.toNat = 0xFE → classify b = .rgb) ∧
    (b.toNat = 0xFF → classify b = .rgba)) ∧
  opcodeLength .index = 1 ∧ opcodeLength .diff = 1 ∧ opcodeLength .luma = 2 ∧ opcodeLength .run = 1 ∧
  opcodeLength .rgb = 4 ∧ opcodeLength .rgba = 5

/-- R94: the first bytes of the six opcodes lie in four ranges and two single values; every byte value is the first byte of
some opcode. -/
def Obligations.TagBytesPartitionAllValues : Prop :=
  ∀ f : DiffFields,
    (∀ (i : Instr) (b : Byte), i.WellFormed → (encode f i).head? = some b →
      match i with
      | .rgba _ _ _ _ => b = 0xFF#8
      | .rgb _ _ _ => b = 0xFE#8
      | .index _ => b.toNat ≤ 0x3F
      | .diff _ _ _ => 0x40 ≤ b.toNat ∧ b.toNat ≤ 0x7F
      | .luma _ _ _ => 0x80 ≤ b.toNat ∧ b.toNat ≤ 0xBF
      | .run _ => 0xC0 ≤ b.toNat ∧ b.toNat ≤ 0xFD) ∧
    (∀ b : Byte, ∃ i : Instr, i.WellFormed ∧ (encode f i).head? = some b)

/-- R84 to R91: decoding the bytes of a well-formed opcode, whatever follows them, gives the opcode back with every operand,
and leaves what follows, under every order of the DIFF fields. -/
def Obligations.DecodeInvertsEncode : Prop :=
  ∀ (f : DiffFields) (i : Instr) (rest : List Byte), i.WellFormed → decode f (encode f i ++ rest) = .ok (i, rest)

/-- R84 to R91: what decoding reads is well-formed, and its bytes are exactly the ones it was read from: no two byte
sequences stand for one opcode. -/
def Obligations.EncodeInvertsDecode : Prop :=
  ∀ (f : DiffFields) (bytes rest : List Byte) (i : Instr), decode f bytes = .ok (i, rest) →
    i.WellFormed ∧ bytes = encode f i ++ rest

/-- R93, R80, R162: every tag byte with its operand bytes is an opcode of the tag byte's class, whatever the operand bytes
are; with fewer it is truncated. -/
def Obligations.NoEncodingIsIllegal : Prop :=
  ∀ (f : DiffFields) (b : Byte) (rest : List Byte),
    (operandCount (classify b) ≤ rest.length →
      ∃ i : Instr, i.WellFormed ∧ i.tag = classify b ∧
        decode f (b :: rest) = .ok (i, rest.drop (operandCount (classify b)))) ∧
    (rest.length < operandCount (classify b) → decode f (b :: rest) = .error (.truncated b))

/-- Words written out from the formats R84 to R89 (worked examples of R153 to R158, R189, R190) decode to the opcodes they
stand for. The DIFF word rests on D6 (log entry 9). -/
def Obligations.WrittenOutWordsDecode : Prop :=
  decode .rgb [0b11111111#8, 10#8, 20#8, 30#8, 128#8] = .ok (.rgba 10#8 20#8 30#8 128#8, []) ∧
  decode .rgb [0b11111110#8, 10#8, 20#8, 30#8] = .ok (.rgb 10#8 20#8 30#8, []) ∧
  decode .rgb [0b00110101#8] = .ok (.index 53#6, []) ∧
  decode .rgb [0b01110110#8] = .ok (.diff 1 (-1) 0, []) ∧
  decode .rgb [0b10101100#8, 0b01100101#8] = .ok (.luma 12 (-2) (-3), []) ∧
  decode .rgb [0b11111101#8] = .ok (.run 62, [])

/-! ### The decoder: one iteration -/

/-- R151, R26: in DEC's turn, when the bytes at the cursor decode to an opcode, the step is that opcode's meaning. -/
def Obligations.StepRunsTheDecodedOpcode : Prop :=
  ∀ (s : State) (i : Instr) (rest : List Byte), s.dec.running = true →
    decode .rgb (s.dec.input.drop s.dec.cur) = .ok (i, rest) → step s = exec i s

/-- R153: RGBA replaces all four channels, or raises TRUNCATED when fewer than 4 bytes follow the tag byte; in DEC's turn
the bytes FF r g b a at the cursor run it. -/
def Obligations.RgbaReplacesAllChannels : Prop :=
  ∀ (r g b a : Byte) (s : State),
    (s.dec.cur + 5 ≤ s.dec.input.length →
      ∃ t, exec (.rgba r g b a) s = .next t ∧ s.SameAround t ∧ s.dec.CachedPrev t.dec.cache ∧
        t.dec.cur = s.dec.cur + 5 ∧ t.dec.prev = ⟨r, g, b, a⟩ ∧ t.dec.pix = s.dec.pix ++ [⟨r, g, b, a⟩]) ∧
    (s.dec.input.length < s.dec.cur + 5 →
      ∃ t, exec (.rgba r g b a) s = .next t ∧ t.dec.status = .doneErr .truncated) ∧
    (∀ rest, s.dec.running = true → s.dec.input.drop s.dec.cur = 0xFF#8 :: r :: g :: b :: a :: rest →
      step s = exec (.rgba r g b a) s)

/-- R154: RGB replaces red, green and blue and keeps alpha, or raises TRUNCATED when fewer than 3 bytes follow the tag byte;
in DEC's turn the bytes FE r g b at the cursor run it. -/
def Obligations.RgbKeepsAlpha : Prop :=
  ∀ (r g b : Byte) (s : State),
    (s.dec.cur + 4 ≤ s.dec.input.length →
      ∃ t, exec (.rgb r g b) s = .next t ∧ s.SameAround t ∧ s.dec.CachedPrev t.dec.cache ∧
        t.dec.cur = s.dec.cur + 4 ∧ t.dec.prev = ⟨r, g, b, s.dec.prev.a⟩ ∧
        t.dec.pix = s.dec.pix ++ [⟨r, g, b, s.dec.prev.a⟩]) ∧
    (s.dec.input.length < s.dec.cur + 4 →
      ∃ t, exec (.rgb r g b) s = .next t ∧ t.dec.status = .doneErr .truncated) ∧
    (∀ rest, s.dec.running = true → s.dec.input.drop s.dec.cur = 0xFE#8 :: r :: g :: b :: rest →
      step s = exec (.rgb r g b) s)

/-- R155: INDEX makes the previous pixel exactly the pixel of the slot, as step 1 of the same iteration left it; in DEC's
turn the byte 00iiiiii at the cursor runs it. A payload of INDEX 0 alone gives the zero pixel, of INDEX 53 alone the initial
pixel. -/
def Obligations.IndexRecallsTheSlot : Prop :=
  (∀ (idx : BitVec 6) (s : State),
    (∃ t, exec (.index idx) s = .next t ∧ s.SameAround t ∧ s.dec.CachedPrev t.dec.cache ∧
      t.dec.cur = s.dec.cur + 1 ∧
      t.dec.prev = (if idx = pixelHash s.dec.prev then s.dec.prev else s.dec.cache.read idx) ∧
      t.dec.pix = s.dec.pix ++ [t.dec.prev]) ∧
    (∀ (b : Byte) rest, s.dec.running = true → s.dec.input.drop s.dec.cur = b :: rest → b.toNat = idx.toNat →
      step s = exec (.index idx) s)) ∧
  decPayload Config.spec [0x00#8] = .ok [⟨0#8, 0#8, 0#8, 0#8⟩] ∧
  decPayload Config.spec [0x35#8] = .ok [⟨0#8, 0#8, 0#8, 255#8⟩]

/-- R156: DIFF adds a delta to each colour channel, alpha unchanged. The wrap modulo 256 is R161's, decision D7 (log
entry 10). -/
def Obligations.DiffAddsDeltasModulo256 : Prop :=
  ∀ (dr dg db : Int) (s : State),
    ∃ t, exec (.diff dr dg db) s = .next t ∧ s.SameAround t ∧ s.dec.CachedPrev t.dec.cache ∧
      t.dec.cur = s.dec.cur + 1 ∧
      (t.dec.prev.r.toNat : Int) = ((s.dec.prev.r.toNat : Int) + dr) % 256 ∧
      (t.dec.prev.g.toNat : Int) = ((s.dec.prev.g.toNat : Int) + dg) % 256 ∧
      (t.dec.prev.b.toNat : Int) = ((s.dec.prev.b.toNat : Int) + db) % 256 ∧
      t.dec.prev.a = s.dec.prev.a ∧ t.dec.pix = s.dec.pix ++ [t.dec.prev]

/-- R157: LUMA adds dg to green, dg + drg to red and dg + dbg to blue, alpha unchanged, or raises TRUNCATED when no byte
follows the tag byte. The wrap modulo 256 is R161's, decision D7 (log entry 10); which registers a raise leaves is the
model's choice (log entry 15). -/
def Obligations.LumaAddsDeltasModulo256 : Prop :=
  ∀ (dg drg dbg : Int) (s : State),
    (s.dec.cur + 2 ≤ s.dec.input.length →
      ∃ t, exec (.luma dg drg dbg) s = .next t ∧ s.SameAround t ∧ s.dec.CachedPrev t.dec.cache ∧
        t.dec.cur = s.dec.cur + 2 ∧
        (t.dec.prev.r.toNat : Int) = ((s.dec.prev.r.toNat : Int) + (dg + drg)) % 256 ∧
        (t.dec.prev.g.toNat : Int) = ((s.dec.prev.g.toNat : Int) + dg) % 256 ∧
        (t.dec.prev.b.toNat : Int) = ((s.dec.prev.b.toNat : Int) + (dg + dbg)) % 256 ∧
        t.dec.prev.a = s.dec.prev.a ∧ t.dec.pix = s.dec.pix ++ [t.dec.prev]) ∧
    (s.dec.input.length < s.dec.cur + 2 → ∃ t, exec (.luma dg drg dbg) s = .next t ∧ s.TruncatedFrom t)

/-- R158: RUN n appends n copies of the previous pixel and changes no pixel register; in DEC's turn the byte 0xC0 | (n - 1)
at the cursor runs it. -/
def Obligations.RunRepeatsThePreviousPixel : Prop :=
  ∀ (n : Nat) (s : State), (Instr.run n).WellFormed →
    (∃ t, exec (.run n) s = .next t ∧ s.SameAround t ∧ s.dec.CachedPrev t.dec.cache ∧
      t.dec.cur = s.dec.cur + 1 ∧ t.dec.prev = s.dec.prev ∧
      t.dec.pix = s.dec.pix ++ List.replicate n s.dec.prev) ∧
    (∀ (b : Byte) rest, s.dec.running = true → s.dec.input.drop s.dec.cur = b :: rest → b.toNat = 0xC0 + (n - 1) →
      step s = exec (.run n) s)

/-- R160, R26, R162: the cursor changes by the opcode's length and in no other way; an opcode of several bytes that IN has
not got in full is truncated instead; a one-byte opcode cannot be. Which registers a raise leaves is the model's choice (log
entry 15). -/
def Obligations.CursorAdvancesByOpcodeLength : Prop :=
  ∀ (i : Instr) (s : State),
    (i.length = 1 ∨ s.dec.cur + i.length ≤ s.dec.input.length →
      ∃ t, exec i s = .next t ∧ t.dec.cur = s.dec.cur + i.length ∧ t.dec.status = s.dec.status) ∧
    (1 < i.length → s.dec.input.length < s.dec.cur + i.length → ∃ t, exec i s = .next t ∧ s.TruncatedFrom t)

/-- R163: when the cursor has reached the end of IN the pass ends with its pixels, and nothing else changes. That the previous
pixel, the cache, the cursor, the drive and the latch stay after done_ok is the model's choice (log entry 16): the spec
discards them (R36, R227) and leaves them unspecified (R251). -/
def Obligations.DecoderPassEndsAtEndOfInput : Prop :=
  ∀ s : State, s.dec.running = true → s.dec.cur = s.dec.input.length →
    ∃ t, step s = .next t ∧ t.dec.status = .doneOk ∧ t.dec.pix = s.dec.pix ∧ t.dec.prev = s.dec.prev ∧
      t.dec.cache = s.dec.cache ∧ t.dec.cur = s.dec.cur ∧ t.dec.input = s.dec.input ∧ t.dec.drive = s.dec.drive ∧
      t.dec.op = s.dec.op ∧ t.enc = s.enc ∧ t.frame = s.frame ∧ t.inbox = s.inbox

/-- R162, R227: an opcode that calls for more bytes than remain ends the pass with TRUNCATED and no pixels. The kind is
decision D11 (log entry 17); which registers a raise leaves is the model's choice (log entry 15). -/
def Obligations.TruncatedOpcodeEndsThePass : Prop :=
  ∀ (s : State) (b : Byte), s.dec.running = true → s.dec.input[s.dec.cur]? = some b →
    s.dec.input.length < s.dec.cur + opcodeLength (classify b) →
    ∃ t, step s = .next t ∧ s.TruncatedFrom t

/-! ### The hash, the cache and the registers -/

/-- R110: the pixel hash, and its worked example. -/
def Obligations.PixelHashFormula : Prop :=
  (∀ p : Pixel, (pixelHash p).toNat = (p.r.toNat * 3 + p.g.toNat * 5 + p.b.toNat * 7 + p.a.toNat * 11) % 64) ∧
  pixelHash ⟨10#8, 20#8, 30#8, 255#8⟩ = 9#6

/-- R111: the same index comes out of a 6-bit datapath on the low six bits of the channels; so pixels collide when a channel
differs by a multiple of 64, and only then when no other channel differs. -/
def Obligations.HashOfSixBitDatapath : Prop :=
  ∀ p : Pixel,
    pixelHash p = 3#6 * p.r.extractLsb' 0 6 + 5#6 * p.g.extractLsb' 0 6 + 7#6 * p.b.extractLsb' 0 6
      + 11#6 * p.a.extractLsb' 0 6 ∧
    (∀ x : Byte, (pixelHash { p with r := x } = pixelHash p ↔ x.toNat % 64 = p.r.toNat % 64) ∧
      (pixelHash { p with g := x } = pixelHash p ↔ x.toNat % 64 = p.g.toNat % 64) ∧
      (pixelHash { p with b := x } = pixelHash p ↔ x.toNat % 64 = p.b.toNat % 64) ∧
      (pixelHash { p with a := x } = pixelHash p ↔ x.toNat % 64 = p.a.toNat % 64))

/-- R113, R114, R116: a cleared slot holds (0,0,0,0); a write goes to the slot of the pixel's own hash, replacing what was
there, and to no other. -/
def Obligations.CacheWriteTouchesOneSlot : Prop :=
  (∀ idx : BitVec 6, Cache.clear.read idx = ⟨0#8, 0#8, 0#8, 0#8⟩) ∧
  (∀ (slots : Cache) (p : Pixel), (slots.write p).read (pixelHash p) = p) ∧
  (∀ (slots : Cache) (p : Pixel) (idx : BitVec 6), idx ≠ pixelHash p → (slots.write p).read idx = slots.read idx)

/-- R8, R55 (the packing is decision D5, log entry 13): a pixel comes back from its 32-bit word, with r in bits 31:24 and a
in bits 7:0. -/
def Obligations.PixelPackingKeepsThePixel : Prop :=
  ∀ p : Pixel, unpackPixel (packPixel p) = p ∧
    (packPixel p).toNat = p.r.toNat * 2 ^ 24 + p.g.toNat * 2 ^ 16 + p.b.toNat * 2 ^ 8 + p.a.toNat

/-- R255, R155 c: an INDEX whose slot step 1 of the same iteration has just written reads the value just written; so a
payload whose first byte is INDEX 53 begins with (0,0,0,255). -/
def Obligations.IndexReadsTheWriteOfItsIteration : Prop :=
  (∀ s : State, ∃ t, exec (.index (pixelHash s.dec.prev)) s = .next t ∧ t.dec.prev = s.dec.prev) ∧
  (∀ (rest : List Byte) (pixels : List Pixel), decPayload Config.spec (0x35#8 :: rest) = .ok pixels →
    pixels.head? = some ⟨0#8, 0#8, 0#8, 255#8⟩)

/-- R155 b, R258 a: a payload of one INDEX byte decodes to the zero pixel, but for slot 53, the only one set before the
first byte. -/
def Obligations.SingleIndexByteDecodesToZeroPixel : Prop :=
  ∀ b : Byte, b.toNat ≤ 0x3F → b ≠ 0x35#8 → decPayload Config.spec [b] = .ok [⟨0#8, 0#8, 0#8, 0#8⟩]

/-! ### The decoder: a whole pass -/

/-- R150, R151, R164: a started pass on a buffer runs to its end in at most one step per byte and one more, its result is
`dec_payload` of the payload, and nothing around the decoder changes. -/
def Obligations.DecoderPassComputesDecPayload : Prop :=
  ∀ (s : State) (payload : List Byte), s.dec = Dec.start .buffer payload →
    ∃ k t, k ≤ payload.length + 1 ∧ Reaches k s t ∧ t.dec.status ≠ .busy ∧
      t.dec.result = decPayload Config.spec payload ∧
      t.enc = s.enc ∧ t.frame = s.frame ∧ t.inbox = s.inbox

/-- R165: the byte-at-a-time form gives the same pixels, or the same error, as the cursor form, for every payload. -/
def Obligations.ByteAtATimeFormEqualsCursorForm : Prop :=
  ∀ (cfg : Config) (payload : List Byte), decStream cfg payload = decPayload cfg payload

/-- R165, D2: the host's Start, one event per byte and Finish, taken by the machine, give `dec_payload` of the bytes. -/
def Obligations.StreamedBytesGiveDecPayload : Prop :=
  ∀ (s : State) (payload : List Byte) (rest : List HostMove), s.HostsTurn → s.dec.status ≠ .busy →
    s.inbox = .openDec :: (payload.map .byteDec ++ .finishDec :: rest) →
    ∃ t, Reaches (payload.length + 2) s t ∧ t.dec.status ≠ .busy ∧
      t.dec.result = decPayload Config.spec payload ∧
      t.enc = s.enc ∧ t.frame = s.frame ∧ t.inbox = rest

/-- R163: a payload of n bytes yields at least n / 5 (rounded up) and at most 62 * n pixels. -/
def Obligations.PayloadPixelCountBounds : Prop :=
  ∀ (cfg : Config) (payload : List Byte) (pixels : List Pixel), decPayload cfg payload = .ok pixels →
    payload.length ≤ 5 * pixels.length ∧ pixels.length ≤ 62 * payload.length

/-- R222: the decoder can raise TRUNCATED and nothing else. -/
def Obligations.DecoderFailsOnlyByTruncation : Prop :=
  ∀ (cfg : Config) (payload : List Byte) (cause : Cause), decPayload cfg payload = .error cause → cause = .truncated

/-- R93, R95, R151: any sequence of well-formed opcodes, canonical or not, decodes, and to the pixels its opcodes' rules give
one after the other. -/
def Obligations.OpcodeSequencesAlwaysDecode : Prop :=
  ∀ (cfg : Config) (is : List Instr), (∀ i ∈ is, i.WellFormed) →
    decPayload cfg (encodeAll cfg.diffFields is) =
      .ok (is.foldl (fun d i => (applyInstr i d.cachePrev).outPrev) (Dec.start .buffer [])).pix

/-! ### The encoder: one pixel -/

/-- R199, R25, R186: a pixel equal to the previous one lengthens the run and is written to the cache
(`ENC_RUN_CACHE_WRITE`, decision D9, log entry 12); the 62nd emits 0xFD and empties the counter. -/
def Obligations.EncoderAccumulatesRuns : Prop :=
  ∀ (s : State), s.EncTakes s.enc.prev →
    (s.enc.run.toNat < 61 →
      ∃ t, step s = .next t ∧ s.PixelTaken t ∧ t.enc.prev = s.enc.prev ∧ s.enc.Cached s.enc.prev t.enc.cache ∧
        t.enc.run.toNat = s.enc.run.toNat + 1 ∧ t.enc.out = s.enc.out) ∧
    (s.enc.run.toNat = 61 →
      ∃ t, step s = .next t ∧ s.PixelTaken t ∧ t.enc.prev = s.enc.prev ∧ s.enc.Cached s.enc.prev t.enc.cache ∧
        t.enc.run = 0#6 ∧ t.enc.out = s.enc.out ++ [0xFD#8])

/-- R187, R192: a pixel that differs from the previous one and is in its slot is emitted as INDEX of its hash, after a
pending run; whatever its alpha. -/
def Obligations.EncoderEmitsIndexOnHit : Prop :=
  ∀ (s : State) (px : Pixel), s.EncTakes px → px ≠ s.enc.prev → s.enc.cache.read (pixelHash px) = px →
    ∃ t, step s = .next t ∧ s.PixelTaken t ∧ t.enc.prev = px ∧ t.enc.run = 0#6 ∧ s.enc.Cached px t.enc.cache ∧
      t.enc.out = s.enc.out ++ pendingBytes s.enc.run ++ [(pixelHash px).setWidth 8]

/-- R188, R192: a pixel with no hit whose alpha differs from the previous one's is emitted as RGBA, after a pending run. -/
def Obligations.EncoderEmitsRgbaOnAlphaChange : Prop :=
  ∀ (s : State) (px : Pixel), s.EncTakes px → s.enc.cache.read (pixelHash px) ≠ px → px.a ≠ s.enc.prev.a →
    ∃ t, step s = .next t ∧ s.PixelTaken t ∧ t.enc.prev = px ∧ t.enc.run = 0#6 ∧ s.enc.Cached px t.enc.cache ∧
      t.enc.out = s.enc.out ++ pendingBytes s.enc.run ++ [0xFF#8, px.r, px.g, px.b, px.a]

/-- R189, R185: with alpha unchanged and no hit, three deltas in -2..1 are emitted as one DIFF byte. The deltas are signed
8-bit differences (`ENC_DELTA_WRAP`, decision D8, log entry 11) and the order of the fields is decision D6 (log
entry 9). -/
def Obligations.EncoderEmitsDiffForSmallDeltas : Prop :=
  ∀ (s : State) (px : Pixel) (dr dg db : Int), s.EncTakes px → px ≠ s.enc.prev →
    s.enc.cache.read (pixelHash px) ≠ px → px.a = s.enc.prev.a →
    dr = (px.r - s.enc.prev.r).toInt → dg = (px.g - s.enc.prev.g).toInt → db = (px.b - s.enc.prev.b).toInt →
    (-2 ≤ dr ∧ dr ≤ 1) → (-2 ≤ dg ∧ dg ≤ 1) → (-2 ≤ db ∧ db ≤ 1) →
    ∃ (t : State) (b : Byte), step s = .next t ∧ s.PixelTaken t ∧ t.enc.prev = px ∧ t.enc.run = 0#6 ∧
      s.enc.Cached px t.enc.cache ∧ t.enc.out = s.enc.out ++ pendingBytes s.enc.run ++ [b] ∧
      (b.toNat : Int) = 0x40 + (dr + 2) * 16 + (dg + 2) * 4 + (db + 2)

/-- R190, R185: with alpha unchanged, no hit and deltas that are not DIFF's, a green delta in -32..31 with both differences
from it in -8..7 is emitted as the two LUMA bytes. The deltas are signed 8-bit differences (decision D8, log entry 11). -/
def Obligations.EncoderEmitsLumaForMediumDeltas : Prop :=
  ∀ (s : State) (px : Pixel) (dr dg db : Int), s.EncTakes px → px ≠ s.enc.prev →
    s.enc.cache.read (pixelHash px) ≠ px → px.a = s.enc.prev.a →
    dr = (px.r - s.enc.prev.r).toInt → dg = (px.g - s.enc.prev.g).toInt → db = (px.b - s.enc.prev.b).toInt →
    ¬ ((-2 ≤ dr ∧ dr ≤ 1) ∧ (-2 ≤ dg ∧ dg ≤ 1) ∧ (-2 ≤ db ∧ db ≤ 1)) →
    (-32 ≤ dg ∧ dg ≤ 31) → (-8 ≤ dr - dg ∧ dr - dg ≤ 7) → (-8 ≤ db - dg ∧ db - dg ≤ 7) →
    ∃ (t : State) (b0 b1 : Byte), step s = .next t ∧ s.PixelTaken t ∧ t.enc.prev = px ∧ t.enc.run = 0#6 ∧
      s.enc.Cached px t.enc.cache ∧ t.enc.out = s.enc.out ++ pendingBytes s.enc.run ++ [b0, b1] ∧
      (b0.toNat : Int) = 0x80 + (dg + 32) ∧ (b1.toNat : Int) = (dr - dg + 8) * 16 + (db - dg + 8)

/-- R191, R185: with alpha unchanged, no hit, and deltas that are neither DIFF's nor LUMA's, the pixel is emitted as RGB. The
deltas are signed 8-bit differences (decision D8, log entry 11). -/
def Obligations.EncoderEmitsRgbOtherwise : Prop :=
  ∀ (s : State) (px : Pixel) (dr dg db : Int), s.EncTakes px → px ≠ s.enc.prev →
    s.enc.cache.read (pixelHash px) ≠ px → px.a = s.enc.prev.a →
    dr = (px.r - s.enc.prev.r).toInt → dg = (px.g - s.enc.prev.g).toInt → db = (px.b - s.enc.prev.b).toInt →
    ¬ ((-2 ≤ dr ∧ dr ≤ 1) ∧ (-2 ≤ dg ∧ dg ≤ 1) ∧ (-2 ≤ db ∧ db ≤ 1)) →
    ¬ ((-32 ≤ dg ∧ dg ≤ 31) ∧ (-8 ≤ dr - dg ∧ dr - dg ≤ 7) ∧ (-8 ≤ db - dg ∧ db - dg ≤ 7)) →
    ∃ t, step s = .next t ∧ s.PixelTaken t ∧ t.enc.prev = px ∧ t.enc.run = 0#6 ∧ s.enc.Cached px t.enc.cache ∧
      t.enc.out = s.enc.out ++ pendingBytes s.enc.run ++ [0xFE#8, px.r, px.g, px.b]

/-- R193, R259: when PX is exhausted the pending run is emitted and the pass ends with its output; nothing else is
appended. That the previous pixel, the cache, PX, the position and the drive stay after done_ok is the model's choice (log
entry 16): the spec discards them (R36, R181) and leaves them unspecified (R251). -/
def Obligations.EncoderFlushesRunAtEndOfInput : Prop :=
  ∀ s : State, s.dec.running = false → s.enc.running = true → s.enc.px.length ≤ s.enc.pos →
    ∃ t, step s = .next t ∧ t.enc.status = .doneOk ∧ t.enc.out = s.enc.out ++ pendingBytes s.enc.run ∧
      t.enc.run = 0#6 ∧ t.enc.prev = s.enc.prev ∧ t.enc.cache = s.enc.cache ∧ t.enc.px = s.enc.px ∧
      t.enc.pos = s.enc.pos ∧ t.enc.drive = s.enc.drive ∧ t.dec = s.dec ∧ t.frame = s.frame ∧ t.inbox = s.inbox

/-- R196: a pixel whose alpha differs from its predecessor's is no RUN, and is emitted as INDEX if it hits the cache, else
as RGBA: never as DIFF, LUMA or RGB. -/
def Obligations.AlphaChangeForcesRgba : Prop :=
  ∀ (cfg : Config) (slots : Cache) (prev px : Pixel), px.a ≠ prev.a →
    eqPrev px prev = false ∧
    (hit slots px = true → selectOpcode cfg slots prev px = .index (pixelHash px)) ∧
    (hit slots px = false → selectOpcode cfg slots prev px = .rgba px.r px.g px.b px.a)

/-! ### The encoder: a whole pass -/

/-- R186: a stretch of k equal pixels costs k / 62 bytes 0xFD and, if k is no multiple of 62, one byte for the rest. -/
def Obligations.StretchBytesClosedForm : Prop :=
  ∀ (f : DiffFields) (k : Nat),
    encodeAll f (runOpcodes k k) =
      List.replicate (k / 62) 0xFD#8 ++ (if k % 62 = 0 then [] else [BitVec.ofNat 8 (0xC0 + (k % 62 - 1))])

/-- R199: the pixel-at-a-time form emits the same bytes in the same order as the look-ahead form, for every pixel
sequence and all values of the parameters. -/
def Obligations.PixelAtATimeFormEqualsLookAheadForm : Prop :=
  ∀ (cfg : Config) (pixels : List Pixel), encStream cfg pixels = encPayload cfg pixels

/-- R180, R184, R265: a started pass on a buffer takes one step per pixel and one to end, succeeds, its output is
`enc_payload` of the pixels, and nothing around the encoder changes. -/
def Obligations.EncoderPassComputesEncPayload : Prop :=
  ∀ (s : State) (pixels : List Pixel), s.dec.running = false → s.enc = Enc.start .buffer pixels →
    ∃ t, Reaches (pixels.length + 1) s t ∧ t.enc.status = .doneOk ∧ t.enc.out = encPayload Config.spec pixels ∧
      t.dec = s.dec ∧ t.frame = s.frame ∧ t.inbox = s.inbox

/-- R199, D2: the host's Start, one event per pixel and Finish, taken by the machine, give `enc_payload` of the pixels. -/
def Obligations.StreamedPixelsGiveEncPayload : Prop :=
  ∀ (s : State) (pixels : List Pixel) (rest : List HostMove), s.HostsTurn → s.enc.status ≠ .busy →
    s.inbox = .openEnc :: (pixels.map .pixelEnc ++ .finishEnc :: rest) →
    ∃ t, Reaches (pixels.length + 2) s t ∧ t.enc.status = .doneOk ∧ t.enc.out = encPayload Config.spec pixels ∧
      t.dec = s.dec ∧ t.frame = s.frame ∧ t.inbox = rest

/-- R197: a payload has at most 5 bytes per pixel and at least one byte per 62 pixels. -/
def Obligations.PayloadSizeBounds : Prop :=
  ∀ (cfg : Config) (pixels : List Pixel),
    (encPayload cfg pixels).length ≤ 5 * pixels.length ∧ pixels.length ≤ 62 * (encPayload cfg pixels).length

/-- R92, R95, R201: what the encoder emits is a sequence of well-formed opcodes in which no DIFF is 0,0,0, no LUMA has three
deltas in DIFF's range, and no RUN shorter than 62 is followed by another RUN. -/
def Obligations.EncoderAvoidsZeroDiffSmallLumaAndSplitRuns : Prop :=
  ∀ (cfg : Config) (pixels : List Pixel), ∃ is : List Instr,
    encPayload cfg pixels = encodeAll cfg.diffFields is ∧ (∀ i ∈ is, i.WellFormed) ∧
    Instr.diff 0 0 0 ∉ is ∧
    (∀ dg drg dbg, Instr.luma dg drg dbg ∈ is →
      ¬ ((-2 ≤ dg + drg ∧ dg + drg ≤ 1) ∧ (-2 ≤ dg ∧ dg ≤ 1) ∧ (-2 ≤ dg + dbg ∧ dg + dbg ≤ 1))) ∧
    (∀ (before after : List Instr) (n m : Nat), is = before ++ .run n :: .run m :: after → n = 62)

/-- R257: after any pixels the encoder's cache is the clear overwritten by those pixels in order, each in the slot of its
hash (`ENC_RUN_CACHE_WRITE` true, decision D9, log entry 12). -/
def Obligations.EncoderCacheIsItsHistory : Prop :=
  ∀ pixels : List Pixel,
    (pixels.foldl (fun e px => e.pixelEvent Config.spec px) (Enc.start .stream [])).cache =
      pixels.foldl Cache.write Cache.clear

/-- R257, R258, R166 c: when the decoder has decoded what the encoder made of some pixels, it holds the same previous pixel,
and at its next step 1 the two caches agree at every slot but 53; at slot 53 they agree once a pixel with hash 53 has
occurred, and before that the decoder's holds (0,0,0,255) and the encoder's (0,0,0,0). -/
def Obligations.CachesAgreeExceptSlot53 : Prop :=
  ∀ (pixels : List Pixel) (e : Enc) (d : Dec),
    e = pixels.foldl (fun e px => e.pixelEvent Config.spec px) (Enc.start .stream []) →
    d = (encPayload Config.spec pixels).foldl (fun d b => d.byteEvent Config.spec.diffFields b) (Dec.start .stream []) →
    d.op = .tag ∧ d.pix = pixels ∧ d.prev = e.prev ∧
    (∀ idx : BitVec 6, idx ≠ 53#6 → d.cachePrev.cache.read idx = e.cache.read idx) ∧
    ((∃ px ∈ pixels, pixelHash px = 53#6) → d.cachePrev.cache.read 53#6 = e.cache.read 53#6) ∧
    ((∀ px ∈ pixels, pixelHash px ≠ 53#6) →
      d.cachePrev.cache.read 53#6 = ⟨0#8, 0#8, 0#8, 255#8⟩ ∧ e.cache.read 53#6 = ⟨0#8, 0#8, 0#8, 0#8⟩)

/-- R166 a, R257: decoding what the encoder made of any pixels gives those pixels, alpha included, for all values of the
parameters. -/
def Obligations.DecodingTheEncodedPixelsGivesThemBack : Prop :=
  ∀ (cfg : Config) (pixels : List Pixel), decPayload cfg (encPayload cfg pixels) = .ok pixels

/-! ### The container -/

/-- R131: the 14 bytes of a header, and the worked example. -/
def Obligations.SerializedHeaderBytes : Prop :=
  (∀ h : Header, ∃ w3 w2 w1 w0 h3 h2 h1 h0 : Byte,
    serializeHeader h = magic ++ [w3, w2, w1, w0] ++ [h3, h2, h1, h0] ++ [h.channels] ++ [h.colorspace] ∧
    h.width.toNat = w3.toNat * 2 ^ 24 + w2.toNat * 2 ^ 16 + w1.toNat * 2 ^ 8 + w0.toNat ∧
    h.height.toNat = h3.toNat * 2 ^ 24 + h2.toNat * 2 ^ 16 + h1.toNat * 2 ^ 8 + h0.toNat ∧
    (serializeHeader h).length = 14) ∧
  serializeHeader ⟨2#32, 1#32, 4#8, 0#8⟩ =
    [0x71#8, 0x6F#8, 0x69#8, 0x66#8, 0#8, 0#8, 0#8, 2#8, 0#8, 0#8, 0#8, 1#8, 4#8, 0#8]

/-- R132: HEADER_SHORT below 14 bytes, BAD_MAGIC for other first bytes than the magic, else the four fields, width and
height big-endian, and the remaining bytes; no other check. -/
def Obligations.ParseHeaderReadsOrFails : Prop :=
  ∀ bytes : List Byte,
    (bytes.length < 14 → parseHeader bytes = .error .headerShort) ∧
    (14 ≤ bytes.length → bytes.take 4 ≠ magic → parseHeader bytes = .error .badMagic) ∧
    (∀ w3 w2 w1 w0 h3 h2 h1 h0 channels colorspace rest,
      bytes = magic ++ [w3, w2, w1, w0, h3, h2, h1, h0, channels, colorspace] ++ rest →
      ∃ h : Header, parseHeader bytes = .ok (h, rest) ∧ h.channels = channels ∧ h.colorspace = colorspace ∧
        h.width.toNat = w3.toNat * 2 ^ 24 + w2.toNat * 2 ^ 16 + w1.toNat * 2 ^ 8 + w0.toNat ∧
        h.height.toNat = h3.toNat * 2 ^ 24 + h2.toNat * 2 ^ 16 + h1.toNat * 2 ^ 8 + h0.toNat)

/-- R137, R138, R224: which error a file reports, in the order of the checks (decisions D12 and D13, log entry 18), and the
image when there is none. -/
def Obligations.FrameDecodeChecksInOrder : Prop :=
  ∀ (cfg : Config) (file : List Byte),
    (file.length < 14 → frameDecode cfg file = .error .headerShort) ∧
    (14 ≤ file.length → file.take 4 ≠ magic → frameDecode cfg file = .error .badMagic) ∧
    (14 ≤ file.length → file.length < 22 → file.take 4 = magic → frameDecode cfg file = .error .endMarker) ∧
    (22 ≤ file.length → file.take 4 = magic → file.drop (file.length - 8) ≠ endMarker →
      frameDecode cfg file = .error .endMarker) ∧
    (∀ (header : Header) (payload : List Byte), file = serializeHeader header ++ payload ++ endMarker →
      (∀ cause, decPayload cfg payload = .error cause → frameDecode cfg file = .error cause) ∧
      (∀ pixels, decPayload cfg payload = .ok pixels →
        pixels.length ≠ header.width.toNat * header.height.toNat → frameDecode cfg file = .error .pixelCount) ∧
      (∀ pixels, decPayload cfg payload = .ok pixels →
        pixels.length = header.width.toNat * header.height.toNat → frameDecode cfg file = .ok ⟨header, pixels⟩))

/-- R136, R60, R197: an encoded file is the header, the payload and the end marker, 22 bytes more than the payload. -/
def Obligations.EncodedFileLayout : Prop :=
  ∀ (cfg : Config) (width height : Nat) (channels colorspace : Byte) (pixels : List Pixel) (file : List Byte),
    frameEncode cfg width height channels colorspace pixels = some file →
    file.length = 22 + (encPayload cfg pixels).length ∧
    file.take 14 = serializeHeader ⟨BitVec.ofNat 32 width, BitVec.ofNat 32 height, channels, colorspace⟩ ∧
    (file.drop 14).take (file.length - 22) = encPayload cfg pixels ∧
    file.drop (file.length - 8) = [0#8, 0#8, 0#8, 0#8, 0#8, 0#8, 0#8, 1#8]

/-- R166 a, R136, R137: decoding an encoded image gives the image back, header fields and pixels. -/
def Obligations.DecodingAnEncodedFileGivesTheImage : Prop :=
  ∀ (cfg : Config) (width height : Nat) (channels colorspace : Byte) (pixels : List Pixel) (file : List Byte),
    frameEncode cfg width height channels colorspace pixels = some file →
    ∃ image : Image, frameDecode cfg file = .ok image ∧ image.pixels = pixels ∧
      image.header.width.toNat = width ∧ image.header.height.toNat = height ∧
      image.header.channels = channels ∧ image.header.colorspace = colorspace

/-- R137, R221, R227: `frame_decode` asked of the machine ends with the image and `status` done_ok, or with the error and no
image, as the function says; the encoder is not touched. The order of the checks is decisions D12 and D13 (log entry 18);
that a call is several steps and that its end is shown in a status of the container's own are the model's choices (log
entries 29 and 30). -/
def Obligations.MachineDecodesFiles : Prop :=
  ∀ (s : State) (file : List Byte) (rest : List HostMove), s.HostsTurn → s.dec.status ≠ .busy →
    s.inbox = .frameDecode file :: rest →
    ∃ k t, k ≤ file.length + 3 ∧ Reaches k s t ∧ t.HostsTurn ∧ t.inbox = rest ∧ t.enc = s.enc ∧ t.frame.file = file ∧
      match frameDecode Config.spec file with
      | .ok image => t.frame.status = .doneOk ∧ t.frame.image = some image
      | .error cause => t.frame.status = .doneErr cause ∧ t.frame.image = none

/-- R136, R141: `frame_encode` asked of the machine ends with the file and `status` done_ok after one step per pixel and
three more; invalid input is refused (decision D14, log entry 8); the decoder is not touched. That a call is several steps
and that its end is shown in a status of the container's own are the model's choices (log entries 29 and 30). -/
def Obligations.MachineEncodesFiles : Prop :=
  ∀ (s : State) (width height : Nat) (channels colorspace : Byte) (pixels : List Pixel) (rest : List HostMove),
    s.HostsTurn → s.enc.status ≠ .busy →
    s.inbox = .frameEncode width height channels colorspace pixels :: rest →
    (∀ file, frameEncode Config.spec width height channels colorspace pixels = some file →
      ∃ t, Reaches (pixels.length + 3) s t ∧ t.HostsTurn ∧ t.inbox = rest ∧ t.dec = s.dec ∧
        t.frame.status = .doneOk ∧ t.frame.file = file ∧ t.frame.image = none) ∧
    (frameEncode Config.spec width height channels colorspace pixels = none → step s = .refused .invalidEncodeInput)

/-- R220, R221: the kind and the code of each cause (the numbers are decision D10 and the kind of TRUNCATED decision D11, log
entry 17). -/
def Obligations.ErrorKindsAndCodes : Prop :=
  (Cause.headerShort.kind = .formatError ∧ Cause.headerShort.code = 1) ∧
  (Cause.badMagic.kind = .formatError ∧ Cause.badMagic.code = 2) ∧
  (Cause.endMarker.kind = .formatError ∧ Cause.endMarker.code = 3) ∧
  (Cause.pixelCount.kind = .formatError ∧ Cause.pixelCount.code = 4) ∧
  (Cause.truncated.kind = .truncatedStreamError ∧ Cause.truncated.code = 5)

/-! ### The whole machine -/

/-- The invariant holds after power-on. It rests on the model's reset values (log entries 1 and 2). -/
def Obligations.ResetMeetsInvariant : Prop := State.reset.Inv

/-- R118, R25, R26, R27, R139, R165, R192, R194, R222, R227: every step keeps the invariant. Its clauses on the registers of
a pass that is over, on the encoder's cache after a run and on the container's status rest on the model's choices (log
entries 12, 15, 16 and 30). -/
def Obligations.StepKeepsInvariant : Prop :=
  ∀ s t : State, s.Inv → step s = .next t → t.Inv

/-- R5, R227, R231: a step has no next state only when it is the host's turn and its move is a Start to a busy agent, an
event to an agent with no byte- or pixel-at-a-time pass open, or an image that cannot be encoded (log entries 6, 7
and 8). Whose turn it is, and that a step with nothing to do changes nothing, are the model's choices (log entries 4
and 5). -/
def Obligations.OnlyForbiddenHostMovesAreRefused : Prop :=
  ∀ s : State, (¬ ∃ t, step s = .next t) ↔
    s.HostsTurn ∧ ∃ move rest, s.inbox = move :: rest ∧
      match move with
      | .startDec _ => s.dec.status = .busy
      | .startEnc _ => s.enc.status = .busy
      | .frameDecode _ => s.dec.status = .busy
      | .frameEncode width height channels _ pixels =>
        s.enc.status = .busy ∨ encodable width height channels pixels = false
      | .openDec => s.dec.status = .busy
      | .byteDec _ => s.dec.listening = false
      | .finishDec => s.dec.listening = false
      | .openEnc => s.enc.status = .busy
      | .pixelEnc _ => s.enc.listening = false
      | .finishEnc => s.enc.listening = false

/-- R29, R234: the decoder's step is a function of the decoder alone and changes the decoder alone, and the same holds of
the encoder: neither reads or writes anything of the other. Whose turn it is, is the model's choice (log entry 5). -/
def Obligations.AgentsShareNothing : Prop :=
  (∀ s₁ s₂ : State, s₁.dec = s₂.dec → s₁.dec.running = true →
    ∃ d : Dec, step s₁ = .next { s₁ with dec := d } ∧ step s₂ = .next { s₂ with dec := d }) ∧
  (∀ s₁ s₂ : State, s₁.enc = s₂.enc → s₁.enc.running = true → s₁.dec.running = false → s₂.dec.running = false →
    ∃ e : Enc, step s₁ = .next { s₁ with enc := e } ∧ step s₂ = .next { s₂ with enc := e })
end

