-- ==== Sys2Proof/Laws/State.lean ====
section
/-! SUPPORT. One lemma per field per update of the state's records, so that no proof unfolds a record update. -/

namespace Sys2Proof.Machine

section DecFields
variable (d : Dec)

@[simp] theorem Dec.setPrev_status (p : Pixel) : (d.setPrev p).status = d.status := rfl
@[simp] theorem Dec.setPrev_drive (p : Pixel) : (d.setPrev p).drive = d.drive := rfl
@[simp] theorem Dec.setPrev_prev (p : Pixel) : (d.setPrev p).prev = p := rfl
@[simp] theorem Dec.setPrev_cache (p : Pixel) : (d.setPrev p).cache = d.cache := rfl
@[simp] theorem Dec.setPrev_cur (p : Pixel) : (d.setPrev p).cur = d.cur := rfl
@[simp] theorem Dec.setPrev_op (p : Pixel) : (d.setPrev p).op = d.op := rfl
@[simp] theorem Dec.setPrev_input (p : Pixel) : (d.setPrev p).input = d.input := rfl
@[simp] theorem Dec.setPrev_pix (p : Pixel) : (d.setPrev p).pix = d.pix := rfl

@[simp] theorem Dec.cachePrev_status : (d.cachePrev).status = d.status := rfl
@[simp] theorem Dec.cachePrev_drive : (d.cachePrev).drive = d.drive := rfl
@[simp] theorem Dec.cachePrev_prev : (d.cachePrev).prev = d.prev := rfl
@[simp] theorem Dec.cachePrev_cache : (d.cachePrev).cache = d.cache.write d.prev := rfl
@[simp] theorem Dec.cachePrev_cur : (d.cachePrev).cur = d.cur := rfl
@[simp] theorem Dec.cachePrev_op : (d.cachePrev).op = d.op := rfl
@[simp] theorem Dec.cachePrev_input : (d.cachePrev).input = d.input := rfl
@[simp] theorem Dec.cachePrev_pix : (d.cachePrev).pix = d.pix := rfl

@[simp] theorem Dec.outPrev_status : (d.outPrev).status = d.status := rfl
@[simp] theorem Dec.outPrev_drive : (d.outPrev).drive = d.drive := rfl
@[simp] theorem Dec.outPrev_prev : (d.outPrev).prev = d.prev := rfl
@[simp] theorem Dec.outPrev_cache : (d.outPrev).cache = d.cache := rfl
@[simp] theorem Dec.outPrev_cur : (d.outPrev).cur = d.cur := rfl
@[simp] theorem Dec.outPrev_op : (d.outPrev).op = d.op := rfl
@[simp] theorem Dec.outPrev_input : (d.outPrev).input = d.input := rfl
@[simp] theorem Dec.outPrev_pix : (d.outPrev).pix = d.pix ++ [d.prev] := rfl

@[simp] theorem Dec.outCopies_status (n : Nat) : (d.outCopies n).status = d.status := rfl
@[simp] theorem Dec.outCopies_drive (n : Nat) : (d.outCopies n).drive = d.drive := rfl
@[simp] theorem Dec.outCopies_prev (n : Nat) : (d.outCopies n).prev = d.prev := rfl
@[simp] theorem Dec.outCopies_cache (n : Nat) : (d.outCopies n).cache = d.cache := rfl
@[simp] theorem Dec.outCopies_cur (n : Nat) : (d.outCopies n).cur = d.cur := rfl
@[simp] theorem Dec.outCopies_op (n : Nat) : (d.outCopies n).op = d.op := rfl
@[simp] theorem Dec.outCopies_input (n : Nat) : (d.outCopies n).input = d.input := rfl
@[simp] theorem Dec.outCopies_pix (n : Nat) : (d.outCopies n).pix = d.pix ++ List.replicate n d.prev := rfl

@[simp] theorem Dec.advance_status (n : Nat) : (d.advance n).status = d.status := rfl
@[simp] theorem Dec.advance_drive (n : Nat) : (d.advance n).drive = d.drive := rfl
@[simp] theorem Dec.advance_prev (n : Nat) : (d.advance n).prev = d.prev := rfl
@[simp] theorem Dec.advance_cache (n : Nat) : (d.advance n).cache = d.cache := rfl
@[simp] theorem Dec.advance_cur (n : Nat) : (d.advance n).cur = d.cur + n := rfl
@[simp] theorem Dec.advance_op (n : Nat) : (d.advance n).op = d.op := rfl
@[simp] theorem Dec.advance_input (n : Nat) : (d.advance n).input = d.input := rfl
@[simp] theorem Dec.advance_pix (n : Nat) : (d.advance n).pix = d.pix := rfl

@[simp] theorem Dec.setOp_status (x : Phase) : (d.setOp x).status = d.status := rfl
@[simp] theorem Dec.setOp_drive (x : Phase) : (d.setOp x).drive = d.drive := rfl
@[simp] theorem Dec.setOp_prev (x : Phase) : (d.setOp x).prev = d.prev := rfl
@[simp] theorem Dec.setOp_cache (x : Phase) : (d.setOp x).cache = d.cache := rfl
@[simp] theorem Dec.setOp_cur (x : Phase) : (d.setOp x).cur = d.cur := rfl
@[simp] theorem Dec.setOp_op (x : Phase) : (d.setOp x).op = x := rfl
@[simp] theorem Dec.setOp_input (x : Phase) : (d.setOp x).input = d.input := rfl
@[simp] theorem Dec.setOp_pix (x : Phase) : (d.setOp x).pix = d.pix := rfl

@[simp] theorem Dec.raise_status (c : Cause) : (d.raise c).status = .doneErr c := rfl
@[simp] theorem Dec.raise_drive (c : Cause) : (d.raise c).drive = d.drive := rfl
@[simp] theorem Dec.raise_prev (c : Cause) : (d.raise c).prev = d.prev := rfl
@[simp] theorem Dec.raise_cache (c : Cause) : (d.raise c).cache = d.cache := rfl
@[simp] theorem Dec.raise_cur (c : Cause) : (d.raise c).cur = d.cur := rfl
@[simp] theorem Dec.raise_op (c : Cause) : (d.raise c).op = d.op := rfl
@[simp] theorem Dec.raise_input (c : Cause) : (d.raise c).input = d.input := rfl
@[simp] theorem Dec.raise_pix (c : Cause) : (d.raise c).pix = [] := rfl

@[simp] theorem Dec.finish_status : (d.finish).status = .doneOk := rfl
@[simp] theorem Dec.finish_drive : (d.finish).drive = d.drive := rfl
@[simp] theorem Dec.finish_prev : (d.finish).prev = d.prev := rfl
@[simp] theorem Dec.finish_cache : (d.finish).cache = d.cache := rfl
@[simp] theorem Dec.finish_cur : (d.finish).cur = d.cur := rfl
@[simp] theorem Dec.finish_op : (d.finish).op = d.op := rfl
@[simp] theorem Dec.finish_input : (d.finish).input = d.input := rfl
@[simp] theorem Dec.finish_pix : (d.finish).pix = d.pix := rfl

end DecFields

section EncFields
variable (e : Enc)

@[simp] theorem Enc.emit_status (bs : List Byte) : (e.emit bs).status = e.status := rfl
@[simp] theorem Enc.emit_drive (bs : List Byte) : (e.emit bs).drive = e.drive := rfl
@[simp] theorem Enc.emit_prev (bs : List Byte) : (e.emit bs).prev = e.prev := rfl
@[simp] theorem Enc.emit_run (bs : List Byte) : (e.emit bs).run = e.run := rfl
@[simp] theorem Enc.emit_cache (bs : List Byte) : (e.emit bs).cache = e.cache := rfl
@[simp] theorem Enc.emit_px (bs : List Byte) : (e.emit bs).px = e.px := rfl
@[simp] theorem Enc.emit_pos (bs : List Byte) : (e.emit bs).pos = e.pos := rfl
@[simp] theorem Enc.emit_out (bs : List Byte) : (e.emit bs).out = e.out ++ bs := rfl

@[simp] theorem Enc.setRun_status (n : BitVec 6) : (e.setRun n).status = e.status := rfl
@[simp] theorem Enc.setRun_drive (n : BitVec 6) : (e.setRun n).drive = e.drive := rfl
@[simp] theorem Enc.setRun_prev (n : BitVec 6) : (e.setRun n).prev = e.prev := rfl
@[simp] theorem Enc.setRun_run (n : BitVec 6) : (e.setRun n).run = n := rfl
@[simp] theorem Enc.setRun_cache (n : BitVec 6) : (e.setRun n).cache = e.cache := rfl
@[simp] theorem Enc.setRun_px (n : BitVec 6) : (e.setRun n).px = e.px := rfl
@[simp] theorem Enc.setRun_pos (n : BitVec 6) : (e.setRun n).pos = e.pos := rfl
@[simp] theorem Enc.setRun_out (n : BitVec 6) : (e.setRun n).out = e.out := rfl

@[simp] theorem Enc.setPrev_status (p : Pixel) : (e.setPrev p).status = e.status := rfl
@[simp] theorem Enc.setPrev_drive (p : Pixel) : (e.setPrev p).drive = e.drive := rfl
@[simp] theorem Enc.setPrev_prev (p : Pixel) : (e.setPrev p).prev = p := rfl
@[simp] theorem Enc.setPrev_run (p : Pixel) : (e.setPrev p).run = e.run := rfl
@[simp] theorem Enc.setPrev_cache (p : Pixel) : (e.setPrev p).cache = e.cache := rfl
@[simp] theorem Enc.setPrev_px (p : Pixel) : (e.setPrev p).px = e.px := rfl
@[simp] theorem Enc.setPrev_pos (p : Pixel) : (e.setPrev p).pos = e.pos := rfl
@[simp] theorem Enc.setPrev_out (p : Pixel) : (e.setPrev p).out = e.out := rfl

@[simp] theorem Enc.cacheWrite_status (p : Pixel) : (e.cacheWrite p).status = e.status := rfl
@[simp] theorem Enc.cacheWrite_drive (p : Pixel) : (e.cacheWrite p).drive = e.drive := rfl
@[simp] theorem Enc.cacheWrite_prev (p : Pixel) : (e.cacheWrite p).prev = e.prev := rfl
@[simp] theorem Enc.cacheWrite_run (p : Pixel) : (e.cacheWrite p).run = e.run := rfl
@[simp] theorem Enc.cacheWrite_cache (p : Pixel) : (e.cacheWrite p).cache = e.cache.write p := rfl
@[simp] theorem Enc.cacheWrite_px (p : Pixel) : (e.cacheWrite p).px = e.px := rfl
@[simp] theorem Enc.cacheWrite_pos (p : Pixel) : (e.cacheWrite p).pos = e.pos := rfl
@[simp] theorem Enc.cacheWrite_out (p : Pixel) : (e.cacheWrite p).out = e.out := rfl

@[simp] theorem Enc.nextPixel_status : (e.nextPixel).status = e.status := rfl
@[simp] theorem Enc.nextPixel_drive : (e.nextPixel).drive = e.drive := rfl
@[simp] theorem Enc.nextPixel_prev : (e.nextPixel).prev = e.prev := rfl
@[simp] theorem Enc.nextPixel_run : (e.nextPixel).run = e.run := rfl
@[simp] theorem Enc.nextPixel_cache : (e.nextPixel).cache = e.cache := rfl
@[simp] theorem Enc.nextPixel_px : (e.nextPixel).px = e.px := rfl
@[simp] theorem Enc.nextPixel_pos : (e.nextPixel).pos = e.pos + 1 := rfl
@[simp] theorem Enc.nextPixel_out : (e.nextPixel).out = e.out := rfl

@[simp] theorem Enc.finish_status : (e.finish).status = .doneOk := rfl
@[simp] theorem Enc.finish_drive : (e.finish).drive = e.drive := rfl
@[simp] theorem Enc.finish_prev : (e.finish).prev = e.prev := rfl
@[simp] theorem Enc.finish_run : (e.finish).run = e.run := rfl
@[simp] theorem Enc.finish_cache : (e.finish).cache = e.cache := rfl
@[simp] theorem Enc.finish_px : (e.finish).px = e.px := rfl
@[simp] theorem Enc.finish_pos : (e.finish).pos = e.pos := rfl
@[simp] theorem Enc.finish_out : (e.finish).out = e.out := rfl

end EncFields

section FrameFields
variable (f : Frame)

@[simp] theorem Frame.raise_status (c : Cause) : (f.raise c).status = .doneErr c := rfl
@[simp] theorem Frame.raise_phase (c : Cause) : (f.raise c).phase = .ready := rfl
@[simp] theorem Frame.raise_header (c : Cause) : (f.raise c).header = f.header := rfl
@[simp] theorem Frame.raise_file (c : Cause) : (f.raise c).file = f.file := rfl
@[simp] theorem Frame.raise_image (c : Cause) : (f.raise c).image = none := rfl

@[simp] theorem Frame.awaitDec_status (h : Header) : (f.awaitDec h).status = .busy := rfl
@[simp] theorem Frame.awaitDec_phase (h : Header) : (f.awaitDec h).phase = .decoding := rfl
@[simp] theorem Frame.awaitDec_header (h : Header) : (f.awaitDec h).header = h := rfl
@[simp] theorem Frame.awaitDec_file (h : Header) : (f.awaitDec h).file = f.file := rfl
@[simp] theorem Frame.awaitDec_image (h : Header) : (f.awaitDec h).image = none := rfl

@[simp] theorem Frame.awaitEnc_status (h : Header) : (f.awaitEnc h).status = .busy := rfl
@[simp] theorem Frame.awaitEnc_phase (h : Header) : (f.awaitEnc h).phase = .encoding := rfl
@[simp] theorem Frame.awaitEnc_header (h : Header) : (f.awaitEnc h).header = h := rfl
@[simp] theorem Frame.awaitEnc_file (h : Header) : (f.awaitEnc h).file = f.file := rfl
@[simp] theorem Frame.awaitEnc_image (h : Header) : (f.awaitEnc h).image = none := rfl

@[simp] theorem Frame.setFile_status (bs : List Byte) : (f.setFile bs).status = f.status := rfl
@[simp] theorem Frame.setFile_phase (bs : List Byte) : (f.setFile bs).phase = f.phase := rfl
@[simp] theorem Frame.setFile_header (bs : List Byte) : (f.setFile bs).header = f.header := rfl
@[simp] theorem Frame.setFile_file (bs : List Byte) : (f.setFile bs).file = bs := rfl
@[simp] theorem Frame.setFile_image (bs : List Byte) : (f.setFile bs).image = f.image := rfl

@[simp] theorem Frame.deliver_status (i : Option Image) : (f.deliver i).status = .doneOk := rfl
@[simp] theorem Frame.deliver_phase (i : Option Image) : (f.deliver i).phase = .ready := rfl
@[simp] theorem Frame.deliver_header (i : Option Image) : (f.deliver i).header = f.header := rfl
@[simp] theorem Frame.deliver_file (i : Option Image) : (f.deliver i).file = f.file := rfl
@[simp] theorem Frame.deliver_image (i : Option Image) : (f.deliver i).image = i := rfl

end FrameFields

section StateFields
variable (s : State)

@[simp] theorem State.withDec_enc (d : Dec) : (s.withDec d).enc = s.enc := rfl
@[simp] theorem State.withDec_dec (d : Dec) : (s.withDec d).dec = d := rfl
@[simp] theorem State.withDec_frame (d : Dec) : (s.withDec d).frame = s.frame := rfl
@[simp] theorem State.withDec_inbox (d : Dec) : (s.withDec d).inbox = s.inbox := rfl

@[simp] theorem State.withEnc_enc (e : Enc) : (s.withEnc e).enc = e := rfl
@[simp] theorem State.withEnc_dec (e : Enc) : (s.withEnc e).dec = s.dec := rfl
@[simp] theorem State.withEnc_frame (e : Enc) : (s.withEnc e).frame = s.frame := rfl
@[simp] theorem State.withEnc_inbox (e : Enc) : (s.withEnc e).inbox = s.inbox := rfl

@[simp] theorem State.withFrame_enc (f : Frame) : (s.withFrame f).enc = s.enc := rfl
@[simp] theorem State.withFrame_dec (f : Frame) : (s.withFrame f).dec = s.dec := rfl
@[simp] theorem State.withFrame_frame (f : Frame) : (s.withFrame f).frame = f := rfl
@[simp] theorem State.withFrame_inbox (f : Frame) : (s.withFrame f).inbox = s.inbox := rfl

end StateFields

@[simp] theorem Dec.start_status (k : Drive) (bs : List Byte) : (Dec.start k bs).status = .busy := rfl
@[simp] theorem Dec.start_drive (k : Drive) (bs : List Byte) : (Dec.start k bs).drive = k := rfl
@[simp] theorem Dec.start_prev (k : Drive) (bs : List Byte) : (Dec.start k bs).prev = initialPrev := rfl
@[simp] theorem Dec.start_cache (k : Drive) (bs : List Byte) : (Dec.start k bs).cache = Cache.clear := rfl
@[simp] theorem Dec.start_cur (k : Drive) (bs : List Byte) : (Dec.start k bs).cur = 0 := rfl
@[simp] theorem Dec.start_op (k : Drive) (bs : List Byte) : (Dec.start k bs).op = .tag := rfl
@[simp] theorem Dec.start_input (k : Drive) (bs : List Byte) : (Dec.start k bs).input = bs := rfl
@[simp] theorem Dec.start_pix (k : Drive) (bs : List Byte) : (Dec.start k bs).pix = [] := rfl

@[simp] theorem Enc.start_status (k : Drive) (ps : List Pixel) : (Enc.start k ps).status = .busy := rfl
@[simp] theorem Enc.start_drive (k : Drive) (ps : List Pixel) : (Enc.start k ps).drive = k := rfl
@[simp] theorem Enc.start_prev (k : Drive) (ps : List Pixel) : (Enc.start k ps).prev = initialPrev := rfl
@[simp] theorem Enc.start_run (k : Drive) (ps : List Pixel) : (Enc.start k ps).run = 0#6 := rfl
@[simp] theorem Enc.start_cache (k : Drive) (ps : List Pixel) : (Enc.start k ps).cache = Cache.clear := rfl
@[simp] theorem Enc.start_px (k : Drive) (ps : List Pixel) : (Enc.start k ps).px = ps := rfl
@[simp] theorem Enc.start_pos (k : Drive) (ps : List Pixel) : (Enc.start k ps).pos = 0 := rfl
@[simp] theorem Enc.start_out (k : Drive) (ps : List Pixel) : (Enc.start k ps).out = [] := rfl

/-- The whole of what `withDec` leaves: put the decoder back and nothing has changed. -/
@[simp] theorem State.withDec_dec_self (s : State) : s.withDec s.dec = s := rfl
@[simp] theorem State.withEnc_enc_self (s : State) : s.withEnc s.enc = s := rfl
@[simp] theorem State.withFrame_frame_self (s : State) : s.withFrame s.frame = s := rfl

end Sys2Proof.Machine
end

