-- ==== Sys2Proof/Laws/Arith.lean ====
section
/-! SUPPORT. What the arithmetic helpers compute, as numbers: the hash (R110), channel sums (R161), channel differences
(R185), byte order (R54) and the packing of a pixel (R55). -/

namespace Sys2Proof.Machine

theorem pixelHash_toNat (p : Pixel) :
    (pixelHash p).toNat = (p.r.toNat * 3 + p.g.toNat * 5 + p.b.toNat * 7 + p.a.toNat * 11) % 64 := by
  simp [pixelHash]

theorem u8_toNat (v : Int) : ((u8 v).toNat : Int) = v % 256 := by
  simp only [u8, BitVec.toNat_ofInt]
  omega

theorem addDelta_toNat (c : Byte) (d : Int) : ((addDelta c d).toNat : Int) = ((c.toNat : Int) + d) % 256 :=
  u8_toNat _

/-- A delta that is a channel difference up to a multiple of 256 leads from the old channel to the new one (R185). -/
theorem addDelta_eq_of_emod (old new : Byte) (d : Int) (h : d % 256 = ((new.toNat : Int) - old.toNat) % 256) :
    addDelta old d = new := by
  have := addDelta_toNat old d
  have := new.isLt
  apply BitVec.eq_of_toNat_eq
  omega

/-- The signed 8-bit difference of two bytes is the signed reading of their 8-bit difference. -/
theorem s8_sub (x y : Byte) : s8 ((x.toNat : Int) - y.toNat) = (x - y).toInt := by
  unfold s8
  congr 1
  apply BitVec.eq_of_toNat_eq
  have h := u8_toNat ((x.toNat : Int) - y.toNat)
  have := x.isLt
  have := y.isLt
  simp only [BitVec.toNat_sub]
  omega

theorem channelDelta_emod (cfg : Config) (x y : Byte) :
    channelDelta cfg x y % 256 = ((x.toNat : Int) - y.toNat) % 256 := by
  unfold channelDelta
  split
  · have h := u8_toNat ((x.toNat : Int) - y.toNat)
    simp only [s8, BitVec.toInt_eq_toNat_cond]
    split <;> omega
  · rfl

theorem fromBe32_toNat (b0 b1 b2 b3 : Byte) :
    (fromBe32 b0 b1 b2 b3).toNat = b0.toNat * 2 ^ 24 + b1.toNat * 2 ^ 16 + b2.toNat * 2 ^ 8 + b3.toNat := by
  have := b0.isLt
  have := b1.isLt
  have := b2.isLt
  have := b3.isLt
  simp only [fromBe32, BitVec.toNat_ofNat]
  omega

/-- Reading the four big-endian bytes of a word gives the word back (R54). -/
theorem fromBe32_extract (v : BitVec 32) :
    fromBe32 (v.extractLsb' 24 8) (v.extractLsb' 16 8) (v.extractLsb' 8 8) (v.extractLsb' 0 8) = v := by
  have := v.isLt
  apply BitVec.eq_of_toNat_eq
  rw [fromBe32_toNat]
  simp only [BitVec.extractLsb'_toNat, Nat.shiftRight_eq_div_pow]
  omega

/-- The four big-endian bytes of the word made of four bytes are those bytes (R54). -/
theorem be32_fromBe32 (b0 b1 b2 b3 : Byte) : be32 (fromBe32 b0 b1 b2 b3) = [b0, b1, b2, b3] := by
  have hw := fromBe32_toNat b0 b1 b2 b3
  have h0 := b0.isLt
  have h1 := b1.isLt
  have h2 := b2.isLt
  have h3 := b3.isLt
  generalize fromBe32 b0 b1 b2 b3 = w at hw
  have e0 : w.extractLsb' 24 8 = b0 := by
    apply BitVec.eq_of_toNat_eq
    rw [BitVec.extractLsb'_toNat, Nat.shiftRight_eq_div_pow]
    omega
  have e1 : w.extractLsb' 16 8 = b1 := by
    apply BitVec.eq_of_toNat_eq
    rw [BitVec.extractLsb'_toNat, Nat.shiftRight_eq_div_pow]
    omega
  have e2 : w.extractLsb' 8 8 = b2 := by
    apply BitVec.eq_of_toNat_eq
    rw [BitVec.extractLsb'_toNat, Nat.shiftRight_eq_div_pow]
    omega
  have e3 : w.extractLsb' 0 8 = b3 := by
    apply BitVec.eq_of_toNat_eq
    rw [BitVec.extractLsb'_toNat, Nat.shiftRight_eq_div_pow]
    omega
  simp only [be32, e0, e1, e2, e3]

/-- A pixel is not changed by being packed into a cache word and taken out again (R55). -/
theorem unpackPixel_packPixel (p : Pixel) : unpackPixel (packPixel p) = p := by
  have h := be32_fromBe32 p.r p.g p.b p.a
  simp only [be32, List.cons.injEq, and_true] at h
  obtain ⟨hr, hg, hb, ha⟩ := h
  simp only [unpackPixel, packPixel, hr, hg, hb, ha]

end Sys2Proof.Machine
end

