-- ==== Sys2Proof/Laws/Cache.lean ====
section
/-! SUPPORT. The laws of the recency cache: a read after a write to the same slot gives the pixel written, every other slot
stays (R114, R115, R116), and clear and write keep what R118 says of every slot. -/

namespace Sys2Proof.Machine

@[simp] theorem Cache.read_clear (idx : BitVec 6) : Cache.clear.read idx = zeroPixel := by
  simp [Cache.read, Cache.clear]

theorem Cache.read_write (slots : Cache) (p : Pixel) (idx : BitVec 6) :
    (slots.write p).read idx = if idx = pixelHash p then p else slots.read idx := by
  simp only [Cache.read, Cache.write, Vector.getElem_set, BitVec.toNat_inj, eq_comm (a := idx)]

@[simp] theorem Cache.read_write_self (slots : Cache) (p : Pixel) : (slots.write p).read (pixelHash p) = p := by
  simp [Cache.read_write]

theorem Cache.read_write_other (slots : Cache) (p : Pixel) (idx : BitVec 6) (h : idx ≠ pixelHash p) :
    (slots.write p).read idx = slots.read idx := by
  simp [Cache.read_write, h]

/-- Two caches that read alike at every slot are the same data. -/
theorem Cache.ext_read (a b : Cache) (h : ∀ idx : BitVec 6, a.read idx = b.read idx) : a = b := by
  apply Vector.ext
  intro k hk
  have := h (BitVec.ofNat 6 k)
  simpa [Cache.read, Nat.mod_eq_of_lt hk] using this

/-- Writing what the slot already holds changes nothing (R192: after an INDEX). -/
theorem Cache.write_of_read (slots : Cache) (p : Pixel) (h : slots.read (pixelHash p) = p) : slots.write p = slots := by
  apply Cache.ext_read
  intro idx
  rw [Cache.read_write]
  split
  · next hi => rw [hi, h]
  · rfl

theorem Cache.hashed_clear : Cache.clear.Hashed := fun idx => .inl (Cache.read_clear idx)

theorem Cache.hashed_write (slots : Cache) (p : Pixel) (h : slots.Hashed) : (slots.write p).Hashed := by
  intro idx
  rw [Cache.read_write]
  split
  · next hi => exact .inr hi.symm
  · exact h idx

end Sys2Proof.Machine
end

