-- ==== Sys2Proof/Laws/Decode.lean ====
section
/-! SUPPORT. The laws of classification, assembly and decoding (R80 to R94). -/

namespace Sys2Proof

@[simp] theorem opcodeLength_rgba : opcodeLength .rgba = 5 := rfl
@[simp] theorem opcodeLength_rgb : opcodeLength .rgb = 4 := rfl
@[simp] theorem opcodeLength_index : opcodeLength .index = 1 := rfl
@[simp] theorem opcodeLength_diff : opcodeLength .diff = 1 := rfl
@[simp] theorem opcodeLength_luma : opcodeLength .luma = 2 := rfl
@[simp] theorem opcodeLength_run : opcodeLength .run = 1 := rfl

@[simp] theorem Instr.length_rgba (r g b a : Byte) : (Instr.rgba r g b a).length = 5 := rfl
@[simp] theorem Instr.length_rgb (r g b : Byte) : (Instr.rgb r g b).length = 4 := rfl
@[simp] theorem Instr.length_index (idx : BitVec 6) : (Instr.index idx).length = 1 := rfl
@[simp] theorem Instr.length_diff (dr dg db : Int) : (Instr.diff dr dg db).length = 1 := rfl
@[simp] theorem Instr.length_luma (dg drg dbg : Int) : (Instr.luma dg drg dbg).length = 2 := rfl
@[simp] theorem Instr.length_run (n : Nat) : (Instr.run n).length = 1 := rfl

theorem Instr.length_pos (i : Instr) : 0 < i.length := Nat.succ_pos _

/-- The field order is the same on the way out and on the way in. -/
@[simp] theorem DiffFields.pick_place (f : DiffFields) (r g b : BitVec 2) :
    f.pick (f.place r g b).1 (f.place r g b).2.1 (f.place r g b).2.2 = (r, g, b) := by
  cases f <;> rfl

@[simp] theorem DiffFields.place_pick (f : DiffFields) (hi mid lo : BitVec 2) :
    f.place (f.pick hi mid lo).1 (f.pick hi mid lo).2.1 (f.pick hi mid lo).2.2 = (hi, mid, lo) := by
  cases f <;> rfl

/-- A biased field read back (R91). -/
theorem unbias_addBias (w : Nat) (bias delta : Int) (h0 : 0 ≤ delta + bias) (h1 : delta + bias < 2 ^ w) :
    unbias bias (addBias w bias delta) = delta := by
  simp only [unbias, addBias, BitVec.toNat_ofInt]
  rw [Int.emod_eq_of_lt h0 (by exact_mod_cast h1)]
  omega

/-- An opcode assembles exactly when its tag byte has the operand bytes it calls for (R80, R90). -/
theorem assemble_isSome (f : DiffFields) (tagByte : Byte) (operands : List Byte) :
    (assemble f tagByte operands).isSome = true ↔ operands.length = operandCount (classify tagByte) := by
  unfold assemble
  rcases operands with _ | ⟨a, _ | ⟨b, _ | ⟨c, _ | ⟨d, _ | ⟨e, l⟩⟩⟩⟩⟩ <;> cases classify tagByte <;>
    simp [operandCount]

/-! ### The fields of the opcode bytes: what is written is what is read (R84 to R87) -/

@[simp] theorem addBias_unbias (w : Nat) (bias : Int) (field : BitVec w) : addBias w bias (unbias bias field) = field := by
  simp [addBias, unbias]

theorem diffByte_fields (hi mid lo : BitVec 2) :
    (diffByte hi mid lo).extractLsb' 4 2 = hi ∧ (diffByte hi mid lo).extractLsb' 2 2 = mid ∧
      (diffByte hi mid lo).extractLsb' 0 2 = lo := by
  revert hi mid lo; decide

theorem lumaByte_field (dg : BitVec 6) : (lumaByte dg).extractLsb' 0 6 = dg := by
  revert dg; decide

theorem lumaSecond_fields (drg dbg : BitVec 4) :
    (lumaSecond drg dbg).extractLsb' 4 4 = drg ∧ (lumaSecond drg dbg).extractLsb' 0 4 = dbg := by
  revert drg dbg; decide

theorem runByte_field (len : BitVec 6) : (runByte len).extractLsb' 0 6 = len := by
  revert len; decide

theorem indexByte_field (idx : BitVec 6) : (idx.setWidth 8 : Byte).extractLsb' 0 6 = idx := by
  revert idx; decide

/-- Every tag byte is made of its class's fields (R82). -/
theorem tagByte_of_class (b : Byte) :
    (classify b = .rgba → b = 0xFF#8) ∧ (classify b = .rgb → b = 0xFE#8) ∧
      (classify b = .index → b = (b.extractLsb' 0 6).setWidth 8) ∧
      (classify b = .diff → b = diffByte (b.extractLsb' 4 2) (b.extractLsb' 2 2) (b.extractLsb' 0 2)) ∧
      (classify b = .luma → b = lumaByte (b.extractLsb' 0 6)) ∧
      (classify b = .run → b = runByte (b.extractLsb' 0 6) ∧ (b.extractLsb' 0 6).toNat ≤ 61) := by
  revert b; decide

/-- Every second byte of LUMA is made of its two fields (R86). -/
theorem lumaSecond_of_fields (b : Byte) : b = lumaSecond (b.extractLsb' 4 4) (b.extractLsb' 0 4) := by
  revert b; decide

@[simp] theorem classify_ff : classify 0xFF#8 = .rgba := rfl
@[simp] theorem classify_fe : classify 0xFE#8 = .rgb := rfl

/-! ### The first byte of an opcode is of the opcode's own class (R94) -/

theorem classify_diffByte (hi mid lo : BitVec 2) : classify (diffByte hi mid lo) = .diff := by
  revert hi mid lo; decide

theorem classify_lumaByte (dg : BitVec 6) : classify (lumaByte dg) = .luma := by
  revert dg; decide

theorem classify_index (idx : BitVec 6) : classify (idx.setWidth 8) = .index := by
  revert idx; decide

/-- A RUN byte is of class RUN when its field is not one of the two reserved values (R92, R94). -/
theorem classify_runByte (len : BitVec 6) (h : len.toNat ≤ 61) : classify (runByte len) = .run := by
  revert len; decide

theorem decode_nil (f : DiffFields) : decode f [] = .error .endOfInput := rfl

end Sys2Proof
end

