-- ==== Sys2Proof/Laws/PerInstr.lean ====
section
/-! SUPPORT. Statements about every instruction as syntax, one lemma per constructor. -/

/-- The encoding of an instruction has the length the opcode-width table gives it (R90), under every order of the DIFF
fields. -/
def Sys2Proof.Laws.EncodedLength.Statement (i : Sys2Proof.Instr) : Prop :=
  ∀ f : Sys2Proof.DiffFields, (Sys2Proof.encode f i).length = i.length

namespace Sys2Proof.Laws

theorem EncodedLength.rgba (r g b a : Byte) : EncodedLength.Statement (.rgba r g b a) := fun _ => rfl

theorem EncodedLength.rgb (r g b : Byte) : EncodedLength.Statement (.rgb r g b) := fun _ => rfl

theorem EncodedLength.index (idx : BitVec 6) : EncodedLength.Statement (.index idx) := fun _ => rfl

theorem EncodedLength.diff (dr dg db : Int) : EncodedLength.Statement (.diff dr dg db) := fun _ => rfl

theorem EncodedLength.luma (dg drg dbg : Int) : EncodedLength.Statement (.luma dg drg dbg) := fun _ => rfl

theorem EncodedLength.run (n : Nat) : EncodedLength.Statement (.run n) := fun _ => rfl

end Sys2Proof.Laws
end

