-- ==== Sys2Proof/Laws/Ops.lean ====
section
/-! SUPPORT. One lemma for each shared operation that says everything it does. -/

namespace Sys2Proof.Machine

/-! ### The decoder -/

@[simp] theorem applyInstr_rgba (r g b a : Byte) (d : Dec) : applyInstr (.rgba r g b a) d = d.setPrev ⟨r, g, b, a⟩ := rfl
@[simp] theorem applyInstr_rgb (r g b : Byte) (d : Dec) :
    applyInstr (.rgb r g b) d = d.setPrev ⟨r, g, b, d.prev.a⟩ := rfl
@[simp] theorem applyInstr_index (idx : BitVec 6) (d : Dec) :
    applyInstr (.index idx) d = d.setPrev (d.cache.read idx) := rfl
@[simp] theorem applyInstr_diff (dr dg db : Int) (d : Dec) :
    applyInstr (.diff dr dg db) d = d.setPrev (addDeltas dr dg db d.prev) := rfl
@[simp] theorem applyInstr_luma (dg drg dbg : Int) (d : Dec) :
    applyInstr (.luma dg drg dbg) d = d.setPrev (addDeltas (dg + drg) dg (dg + dbg) d.prev) := rfl
@[simp] theorem applyInstr_run (n : Nat) (d : Dec) : applyInstr (.run n) d = d.outCopies (n - 1) := rfl

/-- The rule of an opcode touches the previous pixel and, for RUN, PIX: nothing else (R153 to R158). -/
theorem applyInstr_frame (i : Instr) (d : Dec) :
    (applyInstr i d).status = d.status ∧ (applyInstr i d).drive = d.drive ∧ (applyInstr i d).cache = d.cache ∧
      (applyInstr i d).cur = d.cur ∧ (applyInstr i d).op = d.op ∧ (applyInstr i d).input = d.input := by
  cases i <;> exact ⟨rfl, rfl, rfl, rfl, rfl, rfl⟩

/-- An opcode of one byte: all it does (R151). -/
theorem Dec.oneByteOpcode_eq (rule : Dec → Dec) (d : Dec) :
    d.oneByteOpcode rule = ((rule d.cachePrev).outPrev).advance 1 := rfl

/-- A longer opcode that is complete (R151). -/
theorem Dec.longOpcode_of_le (n : Nat) (rule : Dec → Dec) (d : Dec) (h : d.cur + n ≤ d.input.length) :
    d.longOpcode n rule = ((rule d.cachePrev).outPrev).advance n := if_pos h

/-- A longer opcode that the end of IN cuts off (R162). -/
theorem Dec.longOpcode_of_lt (n : Nat) (rule : Dec → Dec) (d : Dec) (h : d.input.length < d.cur + n) :
    d.longOpcode n rule = d.truncate := if_neg (Nat.not_le.mpr h)

/-- An iteration whose opcode is complete: step 1, the opcode's rule, step 3, step 4 (R151). -/
theorem Dec.iterate_of_le (i : Instr) (d : Dec) (h : d.cur + i.length ≤ d.input.length) :
    d.iterate i = ((applyInstr i d.cachePrev).outPrev).advance i.length := by
  unfold Dec.iterate
  split
  · next h1 => rw [h1]; rfl
  · exact Dec.longOpcode_of_le _ _ _ h

/-- `exec` is the iteration on the machine's decoder, for every instruction. -/
theorem exec_eq_iterate (i : Instr) (s : State) : exec i s = .next (s.withDec (s.dec.iterate i)) := by
  cases i <;> rfl

/-! ### The encoder -/

theorem Enc.flush_of_zero (f : DiffFields) (e : Enc) (h : e.run = 0#6) : e.flush f = e := if_pos h

theorem Enc.flush_of_ne (f : DiffFields) (e : Enc) (h : e.run ≠ 0#6) :
    e.flush f = (e.emit (encode f (.run e.run.toNat))).setRun 0#6 := if_neg h

/-- What a flush leaves alone. -/
theorem Enc.flush_frame (f : DiffFields) (e : Enc) :
    (e.flush f).prev = e.prev ∧ (e.flush f).cache = e.cache ∧ (e.flush f).status = e.status ∧
      (e.flush f).drive = e.drive ∧ (e.flush f).px = e.px ∧ (e.flush f).pos = e.pos ∧ (e.flush f).run = 0#6 := by
  by_cases h : e.run = 0#6
  · rw [Enc.flush_of_zero f e h]; exact ⟨rfl, rfl, rfl, rfl, rfl, rfl, h⟩
  · rw [Enc.flush_of_ne f e h]; exact ⟨rfl, rfl, rfl, rfl, rfl, rfl, rfl⟩

/-- The bytes a flush appends: those of the pending run (R199). -/
theorem Enc.flush_out (f : DiffFields) (e : Enc) : (e.flush f).out = e.out ++ pendingBytes e.run := by
  by_cases h : e.run = 0#6
  · rw [Enc.flush_of_zero f e h]; simp [pendingBytes, h]
  · rw [Enc.flush_of_ne f e h]
    have : BitVec.ofNat 6 (e.run.toNat - 1) = e.run - 1#6 := by
      apply BitVec.eq_of_toNat_eq
      have := e.run.isLt
      have : e.run.toNat ≠ 0 := fun h0 => h (BitVec.eq_of_toNat_eq h0)
      simp only [BitVec.toNat_ofNat, BitVec.toNat_sub]
      omega
    simp [pendingBytes, h, encode, runByte, this]

/-- A pixel equal to the previous one (R199). -/
theorem Enc.pixelEvent_of_eq (cfg : Config) (px : Pixel) (e : Enc) (h : px = e.prev) :
    e.pixelEvent cfg px = (e.extendRun cfg.diffFields).runUpdate cfg px := by
  simp [Enc.pixelEvent, eqPrev, h]

/-- A pixel that differs from the previous one (R199). -/
theorem Enc.pixelEvent_of_ne (cfg : Config) (px : Pixel) (e : Enc) (h : px ≠ e.prev) :
    e.pixelEvent cfg px =
      ((e.flush cfg.diffFields).emit (encode cfg.diffFields (selectOpcode cfg e.cache e.prev px))).update px := by
  simp [Enc.pixelEvent, eqPrev, h]

/-- A run that gets longer touches the counter and the output only (R25). -/
theorem Enc.extendRun_frame (f : DiffFields) (e : Enc) :
    (e.extendRun f).prev = e.prev ∧ (e.extendRun f).cache = e.cache ∧ (e.extendRun f).status = e.status ∧
      (e.extendRun f).drive = e.drive ∧ (e.extendRun f).px = e.px ∧ (e.extendRun f).pos = e.pos := by
  unfold Enc.extendRun
  split <;> simp

/-- Below the limit the counter goes up (R25). -/
theorem Enc.extendRun_below (f : DiffFields) (e : Enc) (h : e.run.toNat < 61) : e.extendRun f = e.setRun (e.run + 1#6) := by
  unfold Enc.extendRun
  rw [if_neg]
  intro hh
  have := congrArg BitVec.toNat hh
  simp only [BitVec.toNat_add, BitVec.toNat_ofNat, runMax] at this
  omega

/-- At the limit the byte of RUN 62 is emitted and the counter returns to 0 (R25, R186). -/
theorem Enc.extendRun_at_limit (f : DiffFields) (e : Enc) (h : e.run = 61#6) :
    e.extendRun f = (e.emit [0xFD#8]).setRun 0#6 := by
  unfold Enc.extendRun
  rw [if_pos (by rw [h]; rfl)]
  rfl

/-- A pixel event leaves the input, the position, the drive and the status alone, under all values of the parameters. -/
theorem Enc.pixelEvent_frame (cfg : Config) (px : Pixel) (e : Enc) :
    (e.pixelEvent cfg px).px = e.px ∧ (e.pixelEvent cfg px).pos = e.pos ∧ (e.pixelEvent cfg px).drive = e.drive ∧
      (e.pixelEvent cfg px).status = e.status := by
  by_cases h : px = e.prev
  · rw [Enc.pixelEvent_of_eq cfg px e h]
    have hf := Enc.extendRun_frame cfg.diffFields e
    unfold Enc.runUpdate
    split <;> simp [hf]
  · rw [Enc.pixelEvent_of_ne cfg px e h]
    have hf := Enc.flush_frame cfg.diffFields e
    simp [Enc.update, hf]

/-- A byte event leaves the input, the cursor, the drive and the status alone (R165). -/
theorem Dec.byteEvent_frame (f : DiffFields) (b : Byte) (d : Dec) :
    (d.byteEvent f b).input = d.input ∧ (d.byteEvent f b).cur = d.cur ∧ (d.byteEvent f b).drive = d.drive ∧
      (d.byteEvent f b).status = d.status := by
  have hc : ∀ (t : Byte) (ops : List Byte) (d : Dec), (d.completeOpcode f t ops).input = d.input ∧
      (d.completeOpcode f t ops).cur = d.cur ∧ (d.completeOpcode f t ops).drive = d.drive ∧
      (d.completeOpcode f t ops).status = d.status := by
    intro t ops d
    unfold Dec.completeOpcode
    split
    · next i _ => have hf := applyInstr_frame i d; simp [hf]
    · exact ⟨rfl, rfl, rfl, rfl⟩
  unfold Dec.byteEvent
  split
  · split
    · exact hc b [] d.cachePrev
    · exact ⟨rfl, rfl, rfl, rfl⟩
  · split
    · exact ⟨rfl, rfl, rfl, rfl⟩
    · exact hc _ _ d

/-- Adding the deltas between two pixels of one alpha to the older gives the newer, whichever way the deltas are taken
(R161, R185). -/
theorem addDeltas_deltas (cfg : Config) (px prev : Pixel) (h : px.a = prev.a) :
    addDeltas (deltas cfg px prev).dr (deltas cfg px prev).dg (deltas cfg px prev).db prev = px := by
  obtain ⟨r, g, b, a⟩ := px
  simp only at h
  simp only [addDeltas, deltas, h, Pixel.mk.injEq]
  exact ⟨addDelta_eq_of_emod _ _ _ (channelDelta_emod cfg _ _), addDelta_eq_of_emod _ _ _ (channelDelta_emod cfg _ _),
    addDelta_eq_of_emod _ _ _ (channelDelta_emod cfg _ _), trivial⟩

/-- What the tag selector chooses can be encoded (R182, R96), and is no RUN (R183). -/
theorem selectOpcode_wellFormed (cfg : Config) (slots : Cache) (prev px : Pixel) :
    (selectOpcode cfg slots prev px).WellFormed ∧ ∀ n, selectOpcode cfg slots prev px ≠ .run n := by
  unfold selectOpcode
  split
  · exact ⟨trivial, by simp [emitIndex]⟩
  · split
    · exact ⟨trivial, by simp [emitRgba]⟩
    · split
      · next h =>
        simp only [diffOk, Bool.and_eq_true, decide_eq_true_eq] at h
        exact ⟨⟨h.1.1, h.1.2, h.2⟩, by simp [emitDiff]⟩
      · split
        · next h =>
          simp only [lumaOk, Bool.and_eq_true, decide_eq_true_eq] at h
          exact ⟨⟨h.1.1, h.1.2, h.2⟩, by simp [emitLuma]⟩
        · exact ⟨trivial, by simp [emitRgb]⟩

end Sys2Proof.Machine
end

