-- ==== Sys2Proof/Laws/Step.lean ====
section
/-! SUPPORT. Whose turn a step is, said once: later proofs cite these and never unfold the step. -/

namespace Sys2Proof.Machine

theorem step_eq_stepWith (s : State) : step s = stepWith Config.spec s := rfl

/-- DEC's turn. -/
theorem stepWith_of_dec (cfg : Config) (s : State) (h : s.dec.running = true) : stepWith cfg s = decTurn cfg s := by
  simp [stepWith, h]

/-- ENC's turn. -/
theorem stepWith_of_enc (cfg : Config) (s : State) (hd : s.dec.running = false) (he : s.enc.running = true) :
    stepWith cfg s = .next (encTurn cfg s) := by
  simp [stepWith, hd, he]

/-- FRAME's turn after its DEC pass. -/
theorem stepWith_of_decoding (cfg : Config) (s : State) (hd : s.dec.running = false) (he : s.enc.running = false)
    (hf : s.frame.phase = .decoding) : stepWith cfg s = .next (s.withFrame (frameAfterDec s)) := by
  simp [stepWith, hd, he, hf]

/-- FRAME's turn after its ENC pass. -/
theorem stepWith_of_encoding (cfg : Config) (s : State) (hd : s.dec.running = false) (he : s.enc.running = false)
    (hf : s.frame.phase = .encoding) : stepWith cfg s = .next (s.withFrame (frameAfterEnc s)) := by
  simp [stepWith, hd, he, hf]

/-- The host's turn. -/
theorem stepWith_of_host (cfg : Config) (s : State) (h : s.HostsTurn) : stepWith cfg s = hostTurn cfg s := by
  obtain ⟨hd, he, hf⟩ := h
  simp [stepWith, hd, he, hf]

/-- Every turn of the decoder answers a next state that differs from the state in the decoder only: an iteration, the end
of the pass, or the raise of TRUNCATED. -/
theorem decTurn_cases (cfg : Config) (s : State) :
    (∃ i rest, s.dec.fetch cfg.diffFields = .ok (i, rest) ∧ decTurn cfg s = .next (s.withDec (s.dec.iterate i))) ∨
    (s.dec.fetch cfg.diffFields = .error .endOfInput ∧ decTurn cfg s = .next (s.withDec s.dec.finish)) ∨
    (∃ b, s.dec.fetch cfg.diffFields = .error (.truncated b) ∧ decTurn cfg s = .next (s.withDec s.dec.truncate)) := by
  unfold decTurn
  match s.dec.fetch cfg.diffFields with
  | .ok (i, rest) => exact .inl ⟨i, rest, rfl, exec_eq_iterate i s⟩
  | .error .endOfInput => exact .inr (.inl ⟨rfl, rfl⟩)
  | .error (.truncated b) => exact .inr (.inr ⟨b, rfl, rfl⟩)

/-- Only a move of the host can be without a next state. -/
theorem stepWith_next_or_host (cfg : Config) (s : State) :
    (∃ t, stepWith cfg s = .next t) ∨
    (s.HostsTurn ∧ ∃ move rest, s.inbox = move :: rest ∧
      stepWith cfg s = hostMove cfg move { s with inbox := rest }) := by
  by_cases hd : s.dec.running = true
  · rw [stepWith_of_dec cfg s hd]
    rcases decTurn_cases cfg s with ⟨i, rest, _, h⟩ | ⟨_, h⟩ | ⟨b, _, h⟩ <;> exact .inl ⟨_, h⟩
  · have hd : s.dec.running = false := by simpa using hd
    by_cases he : s.enc.running = true
    · exact .inl ⟨_, stepWith_of_enc cfg s hd he⟩
    · have he : s.enc.running = false := by simpa using he
      match hf : s.frame.phase with
      | .decoding => exact .inl ⟨_, stepWith_of_decoding cfg s hd he hf⟩
      | .encoding => exact .inl ⟨_, stepWith_of_encoding cfg s hd he hf⟩
      | .ready =>
        rw [stepWith_of_host cfg s ⟨hd, he, hf⟩]
        match hi : s.inbox with
        | [] => exact .inl ⟨s, by simp [hostTurn, hi]⟩
        | move :: rest => exact .inr ⟨⟨hd, he, hf⟩, move, rest, rfl, by simp [hostTurn, hi]⟩

/-- The host's turn with a move queued. -/
theorem step_of_host_move (s : State) (move : HostMove) (rest : List HostMove) (h : s.HostsTurn) (hi : s.inbox = move :: rest) :
    step s = hostMove Config.spec move { s with inbox := rest } := by
  rw [step_eq_stepWith, stepWith_of_host _ _ h]
  simp [hostTurn, hi]

/-! ### Several steps -/

theorem reaches_zero (s : State) : Reaches 0 s s := rfl

/-- One step, then k more. -/
theorem reaches_succ {k : Nat} {s m t : State} (h : step s = .next m) (hm : Reaches k m t) : Reaches (k + 1) s t := by
  simp only [Reaches, Host.Core.run]
  rw [show Sys2Proof.core.step s = _ from h]
  exact hm

/-- k steps, then n more. -/
theorem reaches_trans {k n : Nat} {s m t : State} (h : Reaches k s m) (hm : Reaches n m t) : Reaches (k + n) s t := by
  induction k generalizing s with
  | zero =>
    cases h
    rwa [Nat.zero_add]
  | succ k ih =>
    simp only [Reaches, Host.Core.run] at h
    rw [Nat.add_right_comm]
    cases hs : step s with
    | next u =>
      rw [show Sys2Proof.core.step s = _ from hs] at h
      exact reaches_succ hs (ih h)
    | fault r => cases r
    | refused r =>
      rw [show Sys2Proof.core.step s = _ from hs] at h
      cases h

end Sys2Proof.Machine
end

