-- ==== Sys2Proof/Tests/Slice0.lean ====
section
/-! SUPPORT. Tests. Expected results come from the worked examples of the rules and from `95_test_vectors.md` (ids V-…), never
from the model. Then, for every statement with hypotheses, a state and operands that meet them. -/

namespace Sys2Proof.Tests

open Sys2Proof.Machine

/-! ### Helpers -/

/-- A decoder pass on a buffer, at a cursor, with a previous pixel and a clear cache. -/
def decAt (input : List Byte) (cur : Nat) (prev : Pixel) : State :=
  State.reset.withDec { Dec.start .buffer input with cur := cur, prev := prev }

/-- An encoder pass on a buffer of one pixel, with a previous pixel, a run and a cache. -/
def encAt (px prev : Pixel) (run : BitVec 6) (slots : Cache) : State :=
  State.reset.withEnc { Enc.start .buffer [px] with prev := prev, run := run, cache := slots }

/-- The machine after power-on with some moves of the host queued. -/
def asked (moves : List HostMove) : State := { State.reset with inbox := moves }

/-- The decoder of a next state. -/
def decOf : Host.Outcome State Fault Refusal → Option Dec
  | .next t => some t.dec
  | _ => none

/-- The encoder of a next state. -/
def encOf : Host.Outcome State Fault Refusal → Option Enc
  | .next t => some t.enc
  | _ => none

/-- The container of a next state. -/
def frameOf : Host.Outcome State Fault Refusal → Option Frame
  | .next t => some t.frame
  | _ => none

/-- The refusal of a step that has one. -/
def refusalOf : Host.Outcome State Fault Refusal → Option Refusal
  | .refused r => some r
  | _ => none

/-- (10,20,30,255), the pixel of the worked examples. -/
def px0 : Pixel := ⟨10#8, 20#8, 30#8, 255#8⟩

/-- (100,100,100,255). -/
def px1 : Pixel := ⟨100#8, 100#8, 100#8, 255#8⟩

/-- The header of vector V-F1. -/
def header0 : Header := ⟨2#32, 1#32, 4#8, 0#8⟩

/-- The file of vector V-F2. -/
def file0 : List Byte :=
  [0x71#8, 0x6F#8, 0x69#8, 0x66#8, 0#8, 0#8, 0#8, 2#8, 0#8, 0#8, 0#8, 1#8, 4#8, 0#8] ++
  [0xFE#8, 0x0A#8, 0x14#8, 0x1E#8, 0xC0#8] ++ [0#8, 0#8, 0#8, 0#8, 0#8, 0#8, 0#8, 1#8]

/-! ### Well-formedness: an ill-formed term for each check (R96, R92) -/

theorem test_diff_red_below : ¬ (Instr.diff (-3) 0 0).WellFormed := by decide
theorem test_diff_red_above : ¬ (Instr.diff 2 0 0).WellFormed := by decide
theorem test_diff_green_below : ¬ (Instr.diff 0 (-3) 0).WellFormed := by decide
theorem test_diff_green_above : ¬ (Instr.diff 0 2 0).WellFormed := by decide
theorem test_diff_blue_below : ¬ (Instr.diff 0 0 (-3)).WellFormed := by decide
theorem test_diff_blue_above : ¬ (Instr.diff 0 0 2).WellFormed := by decide
theorem test_luma_green_below : ¬ (Instr.luma (-33) 0 0).WellFormed := by decide
theorem test_luma_green_above : ¬ (Instr.luma 32 0 0).WellFormed := by decide
theorem test_luma_red_below : ¬ (Instr.luma 0 (-9) 0).WellFormed := by decide
theorem test_luma_red_above : ¬ (Instr.luma 0 8 0).WellFormed := by decide
theorem test_luma_blue_below : ¬ (Instr.luma 0 0 (-9)).WellFormed := by decide
theorem test_luma_blue_above : ¬ (Instr.luma 0 0 8).WellFormed := by decide
theorem test_run_none : ¬ (Instr.run 0).WellFormed := by decide
theorem test_run_reserved : ¬ (Instr.run 63).WellFormed ∧ ¬ (Instr.run 64).WellFormed := by decide

/-! ### Decoding: words written out from the formats R84 to R89 -/

/-- R89, R153's example. -/
theorem test_decode_rgba : decode .rgb [0b11111111#8, 0x0A#8, 0x14#8, 0x1E#8, 0x80#8] = .ok (.rgba 10#8 20#8 30#8 128#8, []) := rfl

/-- R88, vector V-D14b: operand bytes that look like tags are operands. -/
theorem test_decode_rgb : decode .rgb [0b11111110#8, 0xFF#8, 0xFE#8, 0xC0#8, 0x01#8] = .ok (.rgb 255#8 254#8 192#8, [0x01#8]) := rfl

/-- R84, vectors V-D2, V-D3, V-D4. -/
theorem test_decode_index :
    decode .rgb [0b00000000#8] = .ok (.index 0#6, []) ∧ decode .rgb [0b00110101#8] = .ok (.index 53#6, []) ∧
    decode .rgb [0b00111111#8] = .ok (.index 63#6, []) := ⟨rfl, rfl, rfl⟩

/-- R85, vector V-E11, and its value under the other order of the fields. -/
theorem test_decode_diff :
    decode .rgb [0b01110110#8] = .ok (.diff 1 (-1) 0, []) ∧ decode .bgr [0b01100111#8] = .ok (.diff 1 (-1) 0, []) := ⟨rfl, rfl⟩

/-- R86, vectors V-D11, V-D14a. -/
theorem test_decode_luma :
    decode .rgb [0b10101100#8, 0b01100101#8] = .ok (.luma 12 (-2) (-3), []) ∧
    decode .rgb [0b10000000#8, 0b11111111#8] = .ok (.luma (-32) 7 7, []) := ⟨rfl, rfl⟩

/-- R87, R92: the least and the greatest RUN, and the two bytes above it, which are no RUN. -/
theorem test_decode_run :
    decode .rgb [0b11000000#8] = .ok (.run 1, []) ∧ decode .rgb [0b11111101#8] = .ok (.run 62, []) ∧
    decode .rgb [0b11111110#8] = .error (.truncated 0xFE#8) ∧ decode .rgb [] = .error .endOfInput := ⟨rfl, rfl, rfl, rfl⟩

/-- Table words: the first byte is bits 7..0, later bytes count on, bits above `nbits` are zero. -/
theorem test_table_words :
    decodeTableWord 40 0x801E140AFF = some (.rgba 10#8 20#8 30#8 128#8) ∧ decodeTableWord 8 0xFF = some (.rgba 0#8 0#8 0#8 0#8) ∧
    decodeTableWord 32 0x1E140AFE = some (.rgb 10#8 20#8 30#8) ∧ decodeTableWord 8 0x3F = some (.index 63#6) ∧
    decodeTableWord 8 0x6A = some (.diff 0 0 0) ∧ decodeTableWord 16 0x65AC = some (.luma 12 (-2) (-3)) ∧
    decodeTableWord 8 0xFD = some (.run 62) := by decide

/-- R96, R97: the listing of a file. -/
theorem test_render :
    renderFile ⟨2#32, 2#32, 4#8, 0#8⟩ [.rgb 10#8 20#8 30#8, .diff 1 1 (-1), .luma 12 (-3) 0, .index 9#6] =
      "HEADER 2,2,4,0; RGB 10,20,30; DIFF 1,1,-1; LUMA 12,-3,0; INDEX 9; END" := by decide

/-! ### One step of the decoder for each opcode -/

/-- Vector V-D7. -/
theorem test_exec_rgba :
    (decOf (step (decAt [0xFF#8, 0x0A#8, 0x14#8, 0x1E#8, 0x80#8] 0 initialPrev))).map
      (fun d => (d.prev, d.pix, d.cur, d.cache.read 53#6)) =
      some (⟨10#8, 20#8, 30#8, 128#8⟩, [⟨10#8, 20#8, 30#8, 128#8⟩], 5, ⟨0#8, 0#8, 0#8, 255#8⟩) := by decide

/-- The second iteration of vector V-D17b: alpha 0 is kept. -/
theorem test_exec_rgb :
    (decOf (step (decAt [0x00#8, 0xFE#8, 1#8, 2#8, 3#8] 1 zeroPixel))).map (fun d => (d.prev, d.pix, d.cur)) =
      some (⟨1#8, 2#8, 3#8, 0#8⟩, [⟨1#8, 2#8, 3#8, 0#8⟩], 5) := by decide

/-- Vectors V-D2 and V-D3: an empty slot, and the slot that step 1 has just written. -/
theorem test_exec_index :
    (decOf (step (decAt [0x00#8] 0 initialPrev))).map (fun d => (d.prev, d.cur)) = some (⟨0#8, 0#8, 0#8, 0#8⟩, 1) ∧
    (decOf (step (decAt [0x35#8] 0 initialPrev))).map (fun d => (d.prev, d.cur)) = some (⟨0#8, 0#8, 0#8, 255#8⟩, 1) := by decide

/-- Vector V-D9 and the second iteration of V-D10: the sums wrap both ways. -/
theorem test_exec_diff :
    (decOf (step (decAt [0x40#8] 0 initialPrev))).map (fun d => (d.prev, d.cur)) = some (⟨254#8, 254#8, 254#8, 255#8⟩, 1) ∧
    (decOf (step (decAt [0x7F#8] 0 ⟨255#8, 255#8, 255#8, 255#8⟩))).map (fun d => (d.prev, d.cur)) =
      some (⟨0#8, 0#8, 0#8, 255#8⟩, 1) := by decide

/-- Vectors V-D11 and V-D12a. -/
theorem test_exec_luma :
    (decOf (step (decAt [0xAC#8, 0x65#8] 0 initialPrev))).map (fun d => (d.prev, d.cur)) = some (⟨10#8, 12#8, 9#8, 255#8⟩, 2) ∧
    (decOf (step (decAt [0x80#8, 0x00#8] 0 initialPrev))).map (fun d => (d.prev, d.cur)) =
      some (⟨216#8, 224#8, 216#8, 255#8⟩, 2) := by decide

/-- Vectors V-D5a and V-D5b: `LEN + 1` pixels, no more. -/
theorem test_exec_run :
    (decOf (step (decAt [0xC0#8] 0 initialPrev))).map (fun d => (d.pix, d.cur)) = some ([⟨0#8, 0#8, 0#8, 255#8⟩], 1) ∧
    (decOf (step (decAt [0xFD#8] 0 px0))).map (fun d => (d.pix.length, d.prev)) = some (62, px0) := by decide

/-- Vectors V-D15b and V-D15c: truncation, with no pixels. -/
theorem test_truncated :
    (decOf (step (decAt [0xFF#8, 1#8, 2#8, 3#8] 0 initialPrev))).map (fun d => (d.status, d.pix)) = some (.doneErr .truncated, []) ∧
    (decOf (step (decAt [0x80#8] 0 initialPrev))).map (fun d => (d.status, d.pix)) = some (.doneErr .truncated, []) := by decide

/-- A word placed where the decoder fetches runs as the first instruction after reset. -/
theorem test_fetch_word :
    (decOf (step (State.reset.withFetchWord 32 0x1E140AFE))).map (fun d => (d.prev, d.cur)) = some (px0, 4) ∧
    (decOf (step (State.reset.withFetchWord 8 0xFF))).map (fun d => (d.prev, d.cur)) = some (zeroPixel, 5) := by decide

/-! ### One step of the encoder for each opcode -/

/-- Vector V-E20b: alpha alone changed. -/
theorem test_emit_rgba :
    (encOf (step (encAt ⟨0#8, 0#8, 0#8, 254#8⟩ initialPrev 0#6 Cache.clear))).map (fun e => (e.out, e.prev, e.cache.read 42#6)) =
      some ([0xFF#8, 0#8, 0#8, 0#8, 0xFE#8], ⟨0#8, 0#8, 0#8, 254#8⟩, ⟨0#8, 0#8, 0#8, 254#8⟩) := by decide

/-- Vectors V-E19a and V-E29: red out of LUMA's range, and green at its bound with red out of it. -/
theorem test_emit_rgb :
    (encOf (step (encAt ⟨18#8, 10#8, 10#8, 255#8⟩ initialPrev 0#6 Cache.clear))).map (fun e => (e.out, e.cache.read 35#6)) =
      some ([0xFE#8, 0x12#8, 0x0A#8, 0x0A#8], ⟨18#8, 10#8, 10#8, 255#8⟩) ∧
    (encOf (step (encAt ⟨0#8, 224#8, 0#8, 255#8⟩ initialPrev 0#6 Cache.clear))).map (·.out) =
      some [0xFE#8, 0x00#8, 0xE0#8, 0x00#8] := by decide

/-- Vector V-E7, and the last pixel of V-E23: after the pending run is written, slot 53 is hit. -/
theorem test_emit_index :
    (encOf (step (encAt zeroPixel initialPrev 0#6 Cache.clear))).map (fun e => (e.out, e.prev)) = some ([0x00#8], zeroPixel) ∧
    (encOf (step (encAt initialPrev px1 1#6 (Cache.clear.write initialPrev)))).map (fun e => (e.out, e.run)) =
      some ([0xC0#8, 0x35#8], 0#6) := by decide

/-- Vectors V-E11 and V-E10, the second without the wrap of the deltas too. -/
theorem test_emit_diff :
    (encOf (step (encAt ⟨1#8, 255#8, 0#8, 255#8⟩ initialPrev 0#6 Cache.clear))).map (fun e => (e.out, e.cache.read 51#6)) =
      some ([0x76#8], ⟨1#8, 255#8, 0#8, 255#8⟩) ∧
    encPayload Config.spec [⟨254#8, 254#8, 254#8, 255#8⟩] = [0x40#8] ∧
    encPayload { Config.spec with encDeltaWrap := false } [⟨254#8, 254#8, 254#8, 255#8⟩] = [0xFE#8, 0xFE#8, 0xFE#8, 0xFE#8] ∧
    encPayload { Config.spec with diffFields := .bgr } [⟨1#8, 255#8, 0#8, 255#8⟩] = [0x67#8] := by decide

/-- Vectors V-E16 and V-E17: all upper and all lower bounds. -/
theorem test_emit_luma :
    (encOf (step (encAt ⟨38#8, 31#8, 38#8, 255#8⟩ initialPrev 0#6 Cache.clear))).map (fun e => (e.out, e.cache.read 12#6)) =
      some ([0xBF#8, 0xFF#8], ⟨38#8, 31#8, 38#8, 255#8⟩) ∧
    (encOf (step (encAt ⟨216#8, 224#8, 216#8, 255#8⟩ initialPrev 0#6 Cache.clear))).map (·.out) = some [0x80#8, 0x00#8] := by decide

/-- Vectors V-E3 and V-E4 at their 62nd pixel, and V-E2's pixel with the cache write that a run makes. -/
theorem test_emit_run :
    (encOf (step (encAt px0 px0 61#6 Cache.clear))).map (fun e => (e.out, e.run)) = some ([0xFD#8], 0#6) ∧
    (encOf (step (encAt initialPrev initialPrev 0#6 Cache.clear))).map (fun e => (e.out, e.run, e.cache.read 53#6)) =
      some ([], 1#6, ⟨0#8, 0#8, 0#8, 255#8⟩) := by decide

/-- Vector V-E23 under both values of `ENC_RUN_CACHE_WRITE`. -/
theorem test_run_cache_write :
    encPayload Config.spec [initialPrev, px1, initialPrev] = [0xC0#8, 0xFE#8, 0x64#8, 0x64#8, 0x64#8, 0x35#8] ∧
    encPayload { Config.spec with encRunCacheWrite := false } [initialPrev, px1, initialPrev] =
      [0xC0#8, 0xFE#8, 0x64#8, 0x64#8, 0x64#8, 0xFE#8, 0#8, 0#8, 0#8] := by decide

/-! ### The hash and the container -/

/-- Vectors V-H2, V-H4, V-H9 and V-H14. -/
theorem test_hash :
    pixelHash ⟨0#8, 0#8, 0#8, 255#8⟩ = 53#6 ∧ pixelHash ⟨255#8, 255#8, 255#8, 255#8⟩ = 38#6 ∧
    pixelHash ⟨1#8, 2#8, 3#8, 4#8⟩ = 14#6 ∧ pixelHash ⟨74#8, 20#8, 30#8, 255#8⟩ = 9#6 := by decide

/-- Vectors V-F1 and V-F2. -/
theorem test_frame_encode :
    serializeHeader header0 = [0x71#8, 0x6F#8, 0x69#8, 0x66#8, 0#8, 0#8, 0#8, 2#8, 0#8, 0#8, 0#8, 1#8, 4#8, 0#8] ∧
    frameEncode Config.spec 2 1 4#8 0#8 [px0, px0] = some file0 := by decide

/-- Vectors V-F2, V-F4, V-F6, V-F7: the image, a short header, no room for a marker, a wrong marker. -/
theorem test_frame_decode :
    frameDecode Config.spec file0 = .ok ⟨header0, [px0, px0]⟩ ∧
    frameDecode Config.spec (file0.take 13) = .error .headerShort ∧
    frameDecode Config.spec (file0.take 14) = .error .endMarker ∧
    frameDecode Config.spec (file0.take 26 ++ [0#8]) = .error .endMarker := ⟨rfl, rfl, rfl, rfl⟩

/-- Vector V-F12: a marker that overlaps the header is no marker. -/
theorem test_short_file :
    frameDecode Config.spec [0x71#8, 0x6F#8, 0x69#8, 0x66#8, 0#8, 0#8, 0#8, 0#8, 0#8, 0#8, 0#8, 0#8, 0#8, 1#8] =
      .error .endMarker := rfl

/-- Vector V-F16: the product of the dimensions does not wrap. -/
theorem test_product_does_not_wrap :
    frameDecode Config.spec ([0x71#8, 0x6F#8, 0x69#8, 0x66#8, 0#8, 1#8, 0#8, 0#8, 0#8, 1#8, 0#8, 0#8, 4#8, 0#8] ++ [0xC0#8] ++
      [0#8, 0#8, 0#8, 0#8, 0#8, 0#8, 0#8, 1#8]) = .error .pixelCount := rfl

/-! ### Witnesses: what each statement assumes can be met -/

theorem witness_start_dec :
    (asked [.startDec [0xC0#8]]).HostsTurn ∧ (asked [.startDec [0xC0#8]]).dec.status ≠ .busy ∧
    (asked [.openDec]).HostsTurn ∧ (asked [.openDec]).dec.status ≠ .busy := by decide

theorem witness_start_enc :
    (asked [.startEnc [px0]]).HostsTurn ∧ (asked [.startEnc [px0]]).enc.status ≠ .busy ∧
    (asked [.openEnc]).HostsTurn ∧ (asked [.openEnc]).enc.status ≠ .busy := by decide

theorem witness_start_frame :
    (asked [.frameDecode file0]).HostsTurn ∧ (asked [.frameDecode file0]).dec.status ≠ .busy ∧
    frameOpen file0 = .ok (header0, [0xFE#8, 0x0A#8, 0x14#8, 0x1E#8, 0xC0#8]) ∧
    (asked [.frameEncode 2 1 4#8 0#8 [px0, px0]]).HostsTurn ∧
    (asked [.frameEncode 2 1 4#8 0#8 [px0, px0]]).enc.status ≠ .busy ∧ encodable 2 1 4#8 [px0, px0] = true :=
  ⟨⟨rfl, rfl, rfl⟩, by decide, rfl, ⟨rfl, rfl, rfl⟩, by decide, by decide⟩

/-- Well-formed opcodes at the bounds of every operand, with their first bytes at the bounds of every class (R94). -/
theorem witness_well_formed :
    (Instr.index 0#6).WellFormed ∧ (encode .rgb (.index 0#6)).head? = some 0x00#8 ∧
    (Instr.index 63#6).WellFormed ∧ (encode .rgb (.index 63#6)).head? = some 0x3F#8 ∧
    (Instr.diff (-2) (-2) (-2)).WellFormed ∧ (encode .rgb (.diff (-2) (-2) (-2))).head? = some 0x40#8 ∧
    (Instr.diff 1 1 1).WellFormed ∧ (encode .rgb (.diff 1 1 1)).head? = some 0x7F#8 ∧
    (Instr.luma (-32) (-8) (-8)).WellFormed ∧ (encode .rgb (.luma (-32) (-8) (-8))).head? = some 0x80#8 ∧
    (Instr.luma 31 7 7).WellFormed ∧ (encode .rgb (.luma 31 7 7)).head? = some 0xBF#8 ∧
    (Instr.run 1).WellFormed ∧ (encode .rgb (.run 1)).head? = some 0xC0#8 ∧
    (Instr.run 62).WellFormed ∧ (encode .rgb (.run 62)).head? = some 0xFD#8 ∧
    (Instr.rgb 1#8 2#8 3#8).WellFormed ∧ (encode .rgb (.rgb 1#8 2#8 3#8)).head? = some 0xFE#8 ∧
    (Instr.rgba 1#8 2#8 3#8 4#8).WellFormed ∧ (encode .rgb (.rgba 1#8 2#8 3#8 4#8)).head? = some 0xFF#8 := by decide

/-- `EncodeInvertsDecode`. -/
theorem witness_decode : decode .rgb [0xAC#8, 0x65#8, 0xC0#8] = .ok (.luma 12 (-2) (-3), [0xC0#8]) := rfl

/-- `NoEncodingIsIllegal`: exactly enough operand bytes, and one too few. -/
theorem witness_operand_bytes :
    operandCount (classify 0xFF#8) ≤ [1#8, 2#8, 3#8, 4#8].length ∧ [1#8, 2#8, 3#8].length < operandCount (classify 0xFF#8) := by decide

/-- `StepRunsTheDecodedOpcode`. -/
theorem witness_step_runs :
    (decAt [0x00#8, 0xC0#8] 1 px0).dec.running = true ∧
    decode .rgb ((decAt [0x00#8, 0xC0#8] 1 px0).dec.input.drop (decAt [0x00#8, 0xC0#8] 1 px0).dec.cur) = .ok (.run 1, []) :=
  ⟨rfl, rfl⟩

/-- RGBA: complete, with nothing behind it, and one byte short. -/
theorem witness_rgba :
    (decAt [0xFF#8, 1#8, 2#8, 3#8, 4#8] 0 px0).dec.cur + 5 ≤ (decAt [0xFF#8, 1#8, 2#8, 3#8, 4#8] 0 px0).dec.input.length ∧
    (decAt [0xFF#8, 1#8, 2#8, 3#8] 0 px0).dec.input.length < (decAt [0xFF#8, 1#8, 2#8, 3#8] 0 px0).dec.cur + 5 ∧
    (decAt [0xFF#8, 1#8, 2#8, 3#8, 4#8] 0 px0).dec.running = true ∧
    (decAt [0xFF#8, 1#8, 2#8, 3#8, 4#8] 0 px0).dec.input.drop (decAt [0xFF#8, 1#8, 2#8, 3#8, 4#8] 0 px0).dec.cur =
      0xFF#8 :: 1#8 :: 2#8 :: 3#8 :: 4#8 :: [] := by decide

/-- RGB: complete and one byte short. -/
theorem witness_rgb :
    (decAt [0xFE#8, 1#8, 2#8, 3#8] 0 px0).dec.cur + 4 ≤ (decAt [0xFE#8, 1#8, 2#8, 3#8] 0 px0).dec.input.length ∧
    (decAt [0xFE#8, 1#8, 2#8] 0 px0).dec.input.length < (decAt [0xFE#8, 1#8, 2#8] 0 px0).dec.cur + 4 ∧
    (decAt [0xFE#8, 1#8, 2#8, 3#8] 0 px0).dec.running = true ∧
    (decAt [0xFE#8, 1#8, 2#8, 3#8] 0 px0).dec.input.drop (decAt [0xFE#8, 1#8, 2#8, 3#8] 0 px0).dec.cur =
      0xFE#8 :: 1#8 :: 2#8 :: 3#8 :: [] := by decide

/-- INDEX: the byte of the greatest index at the cursor. -/
theorem witness_index :
    (decAt [0x3F#8] 0 px0).dec.running = true ∧
    (decAt [0x3F#8] 0 px0).dec.input.drop (decAt [0x3F#8] 0 px0).dec.cur = 0x3F#8 :: [] ∧
    (0x3F#8).toNat = (63#6).toNat := by decide

/-- LUMA: complete and one byte short. -/
theorem witness_luma :
    (decAt [0x80#8, 0#8] 0 px0).dec.cur + 2 ≤ (decAt [0x80#8, 0#8] 0 px0).dec.input.length ∧
    (decAt [0x80#8] 0 px0).dec.input.length < (decAt [0x80#8] 0 px0).dec.cur + 2 := by decide

/-- RUN: the byte of the longest run at the cursor. -/
theorem witness_run :
    (Instr.run 62).WellFormed ∧ (decAt [0xFD#8] 0 px0).dec.running = true ∧
    (decAt [0xFD#8] 0 px0).dec.input.drop (decAt [0xFD#8] 0 px0).dec.cur = 0xFD#8 :: [] ∧
    (0xFD#8).toNat = 0xC0 + (62 - 1) := by decide

/-- `CursorAdvancesByOpcodeLength`: a one-byte opcode, one with just enough bytes, and one with a byte too few. -/
theorem witness_cursor :
    (Instr.run 62).length = 1 ∧
    (decAt [0x80#8, 0#8] 0 px0).dec.cur + (Instr.luma (-32) (-8) (-8)).length ≤ (decAt [0x80#8, 0#8] 0 px0).dec.input.length ∧
    1 < (Instr.luma (-32) (-8) (-8)).length ∧
    (decAt [0x80#8] 0 px0).dec.input.length < (decAt [0x80#8] 0 px0).dec.cur + (Instr.luma (-32) (-8) (-8)).length := by decide

/-- `DecoderPassEndsAtEndOfInput`. -/
theorem witness_end_of_input :
    (decAt [0xC0#8] 1 px0).dec.running = true ∧ (decAt [0xC0#8] 1 px0).dec.cur = (decAt [0xC0#8] 1 px0).dec.input.length := by decide

/-- `TruncatedOpcodeEndsThePass`. -/
theorem witness_truncated :
    (decAt [0xBF#8] 0 px0).dec.running = true ∧ (decAt [0xBF#8] 0 px0).dec.input[(decAt [0xBF#8] 0 px0).dec.cur]? = some 0xBF#8 ∧
    (decAt [0xBF#8] 0 px0).dec.input.length < (decAt [0xBF#8] 0 px0).dec.cur + opcodeLength (classify 0xBF#8) := by decide

/-- `CacheWriteTouchesOneSlot`, `SingleIndexByteDecodesToZeroPixel`. -/
theorem witness_slots : 0#6 ≠ pixelHash px0 ∧ (0x3F#8).toNat ≤ 0x3F ∧ 0x3F#8 ≠ 0x35#8 := by decide

/-- `IndexReadsTheWriteOfItsIteration`, `PayloadPixelCountBounds`, `DecoderFailsOnlyByTruncation`: a payload that decodes and
one that does not (V-D3, V-D15d). -/
theorem witness_payloads :
    decPayload Config.spec [0x35#8, 0xFE#8, 1#8, 2#8, 3#8] = .ok [⟨0#8, 0#8, 0#8, 255#8⟩, ⟨1#8, 2#8, 3#8, 255#8⟩] ∧
    decPayload Config.spec [0x00#8, 0xFE#8] = .error .truncated := ⟨rfl, rfl⟩

/-- `DecoderPassComputesDecPayload`: the state that the host's Start leaves. -/
theorem witness_started_dec : ∃ t, step (asked [.startDec [0x00#8, 0xFE#8]]) = .next t ∧ t.dec = Dec.start .buffer [0x00#8, 0xFE#8] :=
  ⟨_, rfl, rfl⟩

/-- `StreamedBytesGiveDecPayload`. -/
theorem witness_streamed_dec :
    (asked [.openDec, .byteDec 0xC0#8, .finishDec]).HostsTurn ∧
    (asked [.openDec, .byteDec 0xC0#8, .finishDec]).dec.status ≠ .busy ∧
    (asked [.openDec, .byteDec 0xC0#8, .finishDec]).inbox = .openDec :: ([0xC0#8].map .byteDec ++ .finishDec :: []) := by decide

/-- `OpcodeSequencesAlwaysDecode`: opcodes that the encoder would not choose. -/
theorem witness_opcodes : ∀ i ∈ [Instr.diff 0 0 0, .run 1, .run 1], i.WellFormed := by simp [Instr.WellFormed]

/-- `EncoderAccumulatesRuns`: the last counter value below the limit, and the limit. -/
theorem witness_runs :
    (encAt px0 px0 60#6 Cache.clear).EncTakes (encAt px0 px0 60#6 Cache.clear).enc.prev ∧
    (encAt px0 px0 60#6 Cache.clear).enc.run.toNat < 61 ∧
    (encAt px0 px0 61#6 Cache.clear).EncTakes (encAt px0 px0 61#6 Cache.clear).enc.prev ∧
    (encAt px0 px0 61#6 Cache.clear).enc.run.toNat = 61 := by decide

/-- `EncoderEmitsIndexOnHit`. -/
theorem witness_hit :
    (encAt px0 px1 3#6 (Cache.clear.write px0)).EncTakes px0 ∧ px0 ≠ (encAt px0 px1 3#6 (Cache.clear.write px0)).enc.prev ∧
    (encAt px0 px1 3#6 (Cache.clear.write px0)).enc.cache.read (pixelHash px0) = px0 := by decide

/-- `EncoderEmitsRgbaOnAlphaChange`. -/
theorem witness_alpha :
    (encAt ⟨0#8, 0#8, 0#8, 254#8⟩ initialPrev 0#6 Cache.clear).EncTakes ⟨0#8, 0#8, 0#8, 254#8⟩ ∧
    (encAt ⟨0#8, 0#8, 0#8, 254#8⟩ initialPrev 0#6 Cache.clear).enc.cache.read (pixelHash ⟨0#8, 0#8, 0#8, 254#8⟩) ≠
      ⟨0#8, 0#8, 0#8, 254#8⟩ ∧
    (254#8 : Byte) ≠ (encAt ⟨0#8, 0#8, 0#8, 254#8⟩ initialPrev 0#6 Cache.clear).enc.prev.a := by decide

/-- What the statements on DIFF, LUMA and RGB assume of a state and its pixel, but for the ranges of the deltas. -/
abbrev NewColour (s : State) (px : Pixel) (dr dg db : Int) : Prop :=
  s.EncTakes px ∧ px ≠ s.enc.prev ∧ s.enc.cache.read (pixelHash px) ≠ px ∧ px.a = s.enc.prev.a ∧
  dr = (px.r - s.enc.prev.r).toInt ∧ dg = (px.g - s.enc.prev.g).toInt ∧ db = (px.b - s.enc.prev.b).toInt

/-- `EncoderEmitsDiffForSmallDeltas`: both bounds, two of the deltas across the 0/255 boundary. -/
theorem witness_diff :
    NewColour (encAt ⟨254#8, 1#8, 255#8, 255#8⟩ initialPrev 0#6 Cache.clear) ⟨254#8, 1#8, 255#8, 255#8⟩ (-2) 1 (-1) := by decide

/-- `EncoderEmitsLumaForMediumDeltas`: all lower bounds (V-E17), all upper bounds (V-E16), and a red delta just out of DIFF's
range (V-E13). -/
theorem witness_luma_emission :
    NewColour (encAt ⟨216#8, 224#8, 216#8, 255#8⟩ initialPrev 0#6 Cache.clear) ⟨216#8, 224#8, 216#8, 255#8⟩ (-40) (-32) (-40) ∧
    NewColour (encAt ⟨38#8, 31#8, 38#8, 255#8⟩ initialPrev 0#6 Cache.clear) ⟨38#8, 31#8, 38#8, 255#8⟩ 38 31 38 ∧
    NewColour (encAt ⟨2#8, 0#8, 0#8, 255#8⟩ initialPrev 0#6 Cache.clear) ⟨2#8, 0#8, 0#8, 255#8⟩ 2 0 0 := by decide

/-- `EncoderEmitsRgbOtherwise`: a green delta just out of range (V-E18), and a red difference just out of range (V-E19a). -/
theorem witness_rgb_emission :
    NewColour (encAt ⟨32#8, 32#8, 32#8, 255#8⟩ initialPrev 0#6 Cache.clear) ⟨32#8, 32#8, 32#8, 255#8⟩ 32 32 32 ∧
    NewColour (encAt ⟨18#8, 10#8, 10#8, 255#8⟩ initialPrev 0#6 Cache.clear) ⟨18#8, 10#8, 10#8, 255#8⟩ 18 10 10 := by decide

/-- `EncoderFlushesRunAtEndOfInput`. -/
theorem witness_flush :
    (State.reset.withEnc { Enc.start .buffer [px0] with pos := 1, run := 1#6 }).dec.running = false ∧
    (State.reset.withEnc { Enc.start .buffer [px0] with pos := 1, run := 1#6 }).enc.running = true ∧
    (State.reset.withEnc { Enc.start .buffer [px0] with pos := 1, run := 1#6 }).enc.px.length ≤
      (State.reset.withEnc { Enc.start .buffer [px0] with pos := 1, run := 1#6 }).enc.pos := by decide

/-- `AlphaChangeForcesRgba`: with a hit (V-E25) and without. -/
theorem witness_alpha_change :
    zeroPixel.a ≠ initialPrev.a ∧ hit Cache.clear zeroPixel = true ∧
    hit (Cache.clear.write ⟨64#8, 0#8, 0#8, 0#8⟩) zeroPixel = false := by decide

/-- `EncoderPassComputesEncPayload`: the state that the host's Start leaves. -/
theorem witness_started_enc :
    ∃ t, step (asked [.startEnc [px0, px0]]) = .next t ∧ t.dec.running = false ∧ t.enc = Enc.start .buffer [px0, px0] :=
  ⟨_, rfl, rfl, rfl⟩

/-- `StreamedPixelsGiveEncPayload`. -/
theorem witness_streamed_enc :
    (asked [.openEnc, .pixelEnc px0, .finishEnc]).HostsTurn ∧ (asked [.openEnc, .pixelEnc px0, .finishEnc]).enc.status ≠ .busy ∧
    (asked [.openEnc, .pixelEnc px0, .finishEnc]).inbox = .openEnc :: ([px0].map .pixelEnc ++ .finishEnc :: []) := by decide

/-- `CachesAgreeExceptSlot53`: pixels with and without one of hash 53 (V-H16). -/
theorem witness_slot_53 :
    (∃ px ∈ [px0, ⟨20#8, 33#8, 41#8, 255#8⟩], pixelHash px = 53#6) ∧ (∀ px ∈ [px0, px1], pixelHash px ≠ 53#6) := by decide

/-- `ParseHeaderReadsOrFails` and `FrameDecodeChecksInOrder`, at the lengths where their clauses meet. -/
theorem witness_file_lengths :
    (file0.take 13).length < 14 ∧ (14 ≤ (file0.take 14).length ∧ (file0.take 14).length < 22 ∧ (file0.take 14).take 4 = magic) ∧
    (14 ≤ (file0.take 21).length ∧ (file0.take 21).length < 22 ∧ (file0.take 21).take 4 = magic) ∧
    (14 ≤ (0x72#8 :: file0.drop 1).length ∧ (0x72#8 :: file0.drop 1).take 4 ≠ magic) ∧
    (22 ≤ (file0.take 22).length ∧ (file0.take 22).take 4 = magic ∧
      (file0.take 22).drop ((file0.take 22).length - 8) ≠ endMarker) ∧
    file0 = magic ++ [0#8, 0#8, 0#8, 2#8, 0#8, 0#8, 0#8, 1#8, 4#8, 0#8] ++ file0.drop 14 := by decide

/-- `FrameDecodeChecksInOrder`: well-framed files whose payload is truncated (V-F9), has a wrong count (V-F8), has the right
one (V-F2). -/
theorem witness_framed_files :
    file0 = serializeHeader header0 ++ [0xFE#8, 0x0A#8, 0x14#8, 0x1E#8, 0xC0#8] ++ endMarker ∧
    decPayload Config.spec [0xFE#8, 0x0A#8, 0x14#8] = .error .truncated ∧
    decPayload Config.spec [0xFE#8, 0x0A#8, 0x14#8, 0x1E#8, 0xC0#8] = .ok [px0, px0] ∧
    [px0, px0].length ≠ (3#32).toNat * header0.height.toNat ∧ [px0, px0].length = header0.width.toNat * header0.height.toNat :=
  ⟨by decide, rfl, rfl, by decide, by decide⟩

/-- `EncodedFileLayout`, `DecodingAnEncodedFileGivesTheImage`, `MachineEncodesFiles`: an image that can be encoded, the empty
one (V-F10), and one that cannot. -/
theorem witness_frame_encode :
    frameEncode Config.spec 2 1 4#8 0#8 [px0, px0] = some file0 ∧ (frameEncode Config.spec 0 0 4#8 0#8 []).isSome = true ∧
    frameEncode Config.spec 2 1 5#8 0#8 [px0, px0] = none ∧ frameEncode Config.spec 1 1 4#8 0#8 [px0, px0] = none := by decide

/-- `MachineDecodesFiles`: files that decode, and files that fail before the decoder is started. -/
theorem witness_frame_decode_asked :
    (asked [.frameDecode file0]).HostsTurn ∧ (asked [.frameDecode file0]).dec.status ≠ .busy ∧
    (frameOf (step (asked [.frameDecode (file0.take 13)]))).map (fun f => (f.status, f.image)) = some (.doneErr .headerShort, none) ∧
    (frameOf (step (asked [.frameDecode file0]))).map (fun f => (f.status, f.phase, f.header)) = some (.busy, .decoding, header0) := by
  decide

/-- `StepKeepsInvariant`: a state that meets the invariant, in which the decoder has a byte to run. -/
theorem witness_invariant : (decAt [0xC0#8] 0 initialPrev).Inv ∧ ∃ t, step (decAt [0xC0#8] 0 initialPrev) = .next t := by
  refine ⟨⟨⟨Cache.hashed_clear, by decide, by decide, .inl rfl, ?_⟩, ⟨Cache.hashed_clear, trivial, by decide, ?_, ?_⟩,
    ⟨by decide, ?_, ?_, ?_, ?_⟩⟩, _, rfl⟩ <;> simp [decAt, State.reset]

/-- `OnlyForbiddenHostMovesAreRefused`: the three refusals, and a move that is none. -/
theorem witness_refusals :
    refusalOf (step { asked [.startDec []] with dec := Dec.start .stream [] }) = some .startDuringPass ∧
    refusalOf (step (asked [.byteDec 0#8])) = some .eventOutsidePass ∧
    refusalOf (step (asked [.frameEncode 1 1 4#8 0#8 []])) = some .invalidEncodeInput ∧
    refusalOf (step (asked [.startDec []])) = none := by decide

/-- `AgentsShareNothing`: two states with one decoder, or one encoder, between them and nothing else. -/
theorem witness_sharing :
    (decAt [0xC0#8] 0 px0).dec = (decAt [0xC0#8] 0 px0 |>.withEnc (Enc.start .buffer [px1])).dec ∧
    (decAt [0xC0#8] 0 px0).dec.running = true ∧
    (encAt px0 px1 0#6 Cache.clear).enc = (encAt px0 px1 0#6 Cache.clear |>.withDec (Dec.start .stream [])).enc ∧
    (encAt px0 px1 0#6 Cache.clear).enc.running = true ∧ (encAt px0 px1 0#6 Cache.clear).dec.running = false ∧
    (encAt px0 px1 0#6 Cache.clear |>.withDec (Dec.start .stream [])).dec.running = false := by decide

end Sys2Proof.Tests
end

section
/-! PROOFS. The scope of the model: what a step is when an agent has the turn, which moves of the host have no meaning, and
the packing of a pixel. -/

namespace Sys2Proof.Machine

/-! ### The turn of an agent is a function of that agent (R29, R234) -/

/-- What DEC becomes in its turn, of the decoder alone. `decTurn_eq_turn` ties it to the step. -/
def Dec.turn (cfg : Config) (d : Dec) : Dec :=
  match d.fetch cfg.diffFields with
  | .ok (i, _) => d.iterate i
  | .error .endOfInput => d.finish
  | .error (.truncated _) => d.truncate

/-- What ENC becomes in its turn, of the encoder alone. `encTurn_eq_turn` ties it to the step. -/
def Enc.turn (cfg : Config) (e : Enc) : Enc :=
  match e.px[e.pos]? with
  | some px => (e.pixelEvent cfg px).nextPixel
  | none => e.finishEvent cfg

theorem decTurn_eq_turn (cfg : Config) (s : State) : decTurn cfg s = .next (s.withDec (s.dec.turn cfg)) := by
  rcases decTurn_cases cfg s with ⟨i, rest, hfetch, hturn⟩ | ⟨hfetch, hturn⟩ | ⟨b, hfetch, hturn⟩ <;>
    rw [hturn, Dec.turn, hfetch]

theorem encTurn_eq_turn (cfg : Config) (s : State) : encTurn cfg s = s.withEnc (s.enc.turn cfg) := by
  unfold encTurn Enc.turn
  cases s.enc.px[s.enc.pos]? <;> rfl

theorem step_of_dec_running (s : State) (h : s.dec.running = true) :
    step s = .next (s.withDec (s.dec.turn Config.spec)) := by
  rw [step_eq_stepWith, stepWith_of_dec _ s h, decTurn_eq_turn]

theorem step_of_enc_running (s : State) (hd : s.dec.running = false) (he : s.enc.running = true) :
    step s = .next (s.withEnc (s.enc.turn Config.spec)) := by
  rw [step_eq_stepWith, stepWith_of_enc _ s hd he, encTurn_eq_turn]

/-- Settles O59: each agent's turn is `Dec.turn` or `Enc.turn` of the register file the two states share. -/
theorem agentsShareNothing : Obligations.AgentsShareNothing := by
  constructor
  · intro s₁ s₂ hsame hrun
    refine ⟨s₁.dec.turn Config.spec, step_of_dec_running s₁ hrun, ?_⟩
    rw [hsame] at hrun ⊢
    exact step_of_dec_running s₂ hrun
  · intro s₁ s₂ hsame hrun hd₁ hd₂
    refine ⟨s₁.enc.turn Config.spec, step_of_enc_running s₁ hd₁ hrun, ?_⟩
    rw [hsame] at hrun ⊢
    exact step_of_enc_running s₂ hd₂ hrun

/-! ### The moves of the host that have no meaning (R231, R235, R141) -/

/-- The moves that the spec gives the host no right to make, by the state of the two agents. `hostMove_next_iff` ties it to
the step. -/
def HostMove.Forbidden (dec : Dec) (enc : Enc) : HostMove → Prop
  | .startDec _ | .frameDecode _ | .openDec => dec.status = .busy
  | .startEnc _ | .openEnc => enc.status = .busy
  | .frameEncode width height channels _ pixels =>
    enc.status = .busy ∨ encodable width height channels pixels = false
  | .byteDec _ | .finishDec => dec.listening = false
  | .pixelEnc _ | .finishEnc => enc.listening = false

/-- The spec's own build is unbounded: it takes inputs of every length (R26, D25). -/
@[simp] theorem admits_spec (n : Nat) : admits Config.spec n = true := rfl

/-- A Start, guarded by its agent being free: it has a next state when the agent is. -/
theorem next_of_guarded_start (busy : Prop) [Decidable busy] (reason : Refusal) (u : State) :
    (∃ t, (if busy then .refused reason else .next u : Host.Outcome State Fault Refusal) = .next t) ↔ ¬ busy := by
  by_cases h : busy <;> simp [h]

/-- An event, guarded by its agent listening: it has a next state when the agent does. -/
theorem next_of_guarded_event (listening : Bool) (reason : Refusal) (u : State) :
    (∃ t, (if listening = true then .next u else .refused reason : Host.Outcome State Fault Refusal) = .next t) ↔
      ¬ listening = false := by
  cases listening <;> simp

/-- In the spec's own build a move of the host has a next state exactly when it is not forbidden. -/
theorem hostMove_next_iff (move : HostMove) (s : State) :
    (∃ t, hostMove Config.spec move s = .next t) ↔ ¬ move.Forbidden s.dec s.enc := by
  cases move with
  | startDec payload => exact next_of_guarded_start _ _ _
  | startEnc pixels => exact next_of_guarded_start _ _ _
  | frameDecode file => exact next_of_guarded_start _ _ _
  | openDec => exact next_of_guarded_start _ _ _
  | openEnc => exact next_of_guarded_start _ _ _
  | byteDec b => exact next_of_guarded_event _ _ _
  | finishDec => exact next_of_guarded_event _ _ _
  | pixelEnc px => exact next_of_guarded_event _ _ _
  | finishEnc => exact next_of_guarded_event _ _ _
  | frameEncode width height channels colorspace pixels =>
    by_cases hbusy : s.enc.status = .busy
    · simp [hostMove, HostMove.Forbidden, hbusy]
    · cases henc : encodable width height channels pixels <;>
        simp [hostMove, HostMove.Forbidden, hbusy, henc]

/-- A step has no next state exactly when it is the host's turn and its next move is forbidden. -/
theorem step_stuck_iff (s : State) :
    (¬ ∃ t, step s = .next t) ↔
      s.HostsTurn ∧ ∃ move rest, s.inbox = move :: rest ∧ move.Forbidden s.dec s.enc := by
  constructor
  · intro hstuck
    rcases stepWith_next_or_host Config.spec s with hnext | ⟨hturn, move, rest, hinbox, hmove⟩
    · exact absurd hnext hstuck
    · rw [step_eq_stepWith, hmove, hostMove_next_iff, not_not] at hstuck
      exact ⟨hturn, move, rest, hinbox, hstuck⟩
  · rintro ⟨hturn, move, rest, hinbox, hforbidden⟩
    rw [step_of_host_move s move rest hturn hinbox, hostMove_next_iff, not_not]
    exact hforbidden

/-- Settles O58: `HostMove.Forbidden` is the obligation's list of moves, and `step_stuck_iff` says they are the stuck ones. -/
theorem onlyForbiddenHostMovesAreRefused : Obligations.OnlyForbiddenHostMovesAreRefused := by
  intro s
  rw [step_stuck_iff]
  refine and_congr_right fun _ => exists_congr fun move => exists_congr fun rest => and_congr_right fun _ => ?_
  cases move <;> rfl

/-! ### The packing of a pixel (R55, D5) -/

/-- Settles O22: the two laws of the big-endian word, read at a pixel's four channels. -/
theorem pixelPackingKeepsThePixel : Obligations.PixelPackingKeepsThePixel :=
  fun p => ⟨unpackPixel_packPixel p, fromBe32_toNat p.r p.g p.b p.a⟩

end Sys2Proof.Machine
end

section
/-! PROOFS. The cursor of the decoder and the run counter of the encoder: what a turn does to the state when an opcode is
read, when the end of IN cuts it off, and when a pixel lengthens the run. -/

namespace Sys2Proof.Machine

/-! ### The turn of the decoder on an opcode (R26, R151, R160, R162) -/

/-- The turn on an opcode that is read is its iteration (R151). -/
theorem Dec.turn_of_fetch (cfg : Config) (d : Dec) (i : Instr) (rest : List Byte)
    (h : d.fetch cfg.diffFields = .ok (i, rest)) : d.turn cfg = d.iterate i := by
  rw [Dec.turn, h]

/-- An iteration that `need` does not stop: step 1, the opcode's rule, step 3, step 4. A one-byte opcode asks `need` for
nothing, so `Dec.iterate_of_le`'s bound on the cursor is not called for (R162). -/
theorem Dec.iterate_of_complete (i : Instr) (d : Dec) (h : i.length = 1 ∨ d.cur + i.length ≤ d.input.length) :
    d.iterate i = ((applyInstr i d.cachePrev).outPrev).advance i.length := by
  rcases h with hone | hfits
  · rw [Dec.iterate, if_pos hone, hone, Dec.oneByteOpcode_eq]
  · exact Dec.iterate_of_le i d hfits

/-- An iteration of a longer opcode that the end of IN cuts off (R162). -/
theorem Dec.iterate_of_lt (i : Instr) (d : Dec) (hlong : 1 < i.length) (hcut : d.input.length < d.cur + i.length) :
    d.iterate i = d.truncate := by
  rw [Dec.iterate, if_neg hlong.ne', Dec.longOpcode_of_lt _ _ _ hcut]

/-- What the truncated iteration leaves of the machine (R162, R227). -/
theorem truncatedFrom_truncate (s : State) : s.TruncatedFrom (s.withDec s.dec.truncate) :=
  ⟨rfl, rfl, rfl, rfl, s.dec.cache.read_write s.dec.prev, rfl, rfl, rfl, rfl, rfl, rfl⟩

/-- Settles O9: the decoder's turn is the iteration of what it fetches, and so is `exec`. -/
theorem stepRunsTheDecodedOpcode : Obligations.StepRunsTheDecodedOpcode := by
  intro s i rest hrun hdecode
  rw [step_of_dec_running s hrun, Dec.turn_of_fetch Config.spec s.dec i rest hdecode, exec_eq_iterate]

/-- Settles O16: a complete opcode moves the cursor in step 4 only, one cut off by the end of IN raises TRUNCATED. -/
theorem cursorAdvancesByOpcodeLength : Obligations.CursorAdvancesByOpcodeLength := by
  intro i s
  constructor
  · intro hcomplete
    refine ⟨_, exec_eq_iterate i s, ?_⟩
    obtain ⟨hstatus, -, -, hcur, -, -⟩ := applyInstr_frame i s.dec.cachePrev
    simp [Dec.iterate_of_complete i s.dec hcomplete, hstatus, hcur]
  · intro hlong hcut
    refine ⟨_, exec_eq_iterate i s, ?_⟩
    rw [Dec.iterate_of_lt i s.dec hlong hcut]
    exact truncatedFrom_truncate s

/-! ### The turn of the encoder on a pixel (R25, R27, R192, R199) -/

/-- ENC's turn on a pixel is the pixel's event and the next position (R27, R199). -/
theorem step_of_encTakes (s : State) (px : Pixel) (h : s.EncTakes px) :
    step s = .next (s.withEnc (s.enc.pixelEvent Config.spec px).nextPixel) := by
  obtain ⟨hdec, henc, hpx⟩ := h
  rw [step_of_enc_running s hdec henc, Enc.turn, hpx]

/-- What ENC's turn on a pixel leaves as it was, whatever the pixel (R27). -/
theorem pixelTaken_of_pixelEvent (cfg : Config) (px : Pixel) (s : State) :
    s.PixelTaken (s.withEnc (s.enc.pixelEvent cfg px).nextPixel) := by
  obtain ⟨hpx, hpos, hdrive, hstatus⟩ := Enc.pixelEvent_frame cfg px s.enc
  exact ⟨rfl, rfl, rfl, hpx, hdrive, hstatus, congrArg (· + 1) hpos⟩

/-- The spec's own build writes the cache for a pixel absorbed into a run (R192, D9). -/
@[simp] theorem Enc.runUpdate_spec (px : Pixel) (e : Enc) : e.runUpdate Config.spec px = e.cacheWrite px := rfl

/-- The event of one more pixel of a run, in the spec's own build: the counter and the cache's slot (R192, R199). -/
theorem Enc.pixelEvent_prev_spec (e : Enc) :
    e.pixelEvent Config.spec e.prev = (e.extendRun Config.spec.diffFields).cacheWrite e.prev := by
  rw [Enc.pixelEvent_of_eq Config.spec e.prev e rfl, Enc.runUpdate_spec]

/-- One more pixel of a run leaves the previous pixel, and writes it to its slot (R192, D9). -/
theorem Enc.pixelEvent_prev_keeps (e : Enc) :
    (e.pixelEvent Config.spec e.prev).prev = e.prev ∧ e.Cached e.prev (e.pixelEvent Config.spec e.prev).cache := by
  obtain ⟨hprev, hcache, -⟩ := Enc.extendRun_frame Config.spec.diffFields e
  rw [Enc.pixelEvent_prev_spec, Enc.cacheWrite_prev, Enc.cacheWrite_cache, hprev, hcache]
  exact ⟨rfl, e.cache.read_write e.prev⟩

/-- A run below its limit gets one longer, and nothing is emitted (R25). -/
theorem Enc.pixelEvent_prev_below (e : Enc) (h : e.run.toNat < 61) :
    (e.pixelEvent Config.spec e.prev).run.toNat = e.run.toNat + 1 ∧ (e.pixelEvent Config.spec e.prev).out = e.out := by
  rw [Enc.pixelEvent_prev_spec, Enc.extendRun_below _ e h]
  have hnowrap : (e.run + 1#6).toNat = e.run.toNat + 1 := by
    rw [BitVec.toNat_add, BitVec.toNat_ofNat]
    omega
  simpa using hnowrap

/-- The 62nd pixel of a run emits its byte and returns the counter to 0 (R25, R186). -/
theorem Enc.pixelEvent_prev_at_limit (e : Enc) (h : e.run.toNat = 61) :
    (e.pixelEvent Config.spec e.prev).run = 0#6 ∧ (e.pixelEvent Config.spec e.prev).out = e.out ++ [0xFD#8] := by
  rw [Enc.pixelEvent_prev_spec, Enc.extendRun_at_limit _ e (BitVec.eq_of_toNat_eq h)]
  exact ⟨rfl, rfl⟩

/-- Settles O31: the turn is the pixel's event, which keeps the previous pixel, and the counter decides what is emitted. -/
theorem encoderAccumulatesRuns : Obligations.EncoderAccumulatesRuns := by
  intro s htakes
  have hstep := step_of_encTakes s s.enc.prev htakes
  have htaken := pixelTaken_of_pixelEvent Config.spec s.enc.prev s
  obtain ⟨hprev, hcached⟩ := Enc.pixelEvent_prev_keeps s.enc
  constructor
  · intro hbelow
    obtain ⟨hrun, hout⟩ := Enc.pixelEvent_prev_below s.enc hbelow
    exact ⟨_, hstep, htaken, hprev, hcached, hrun, hout⟩
  · intro hlimit
    obtain ⟨hrun, hout⟩ := Enc.pixelEvent_prev_at_limit s.enc hlimit
    exact ⟨_, hstep, htaken, hprev, hcached, hrun, hout⟩

end Sys2Proof.Machine
end

section
/-! PROOFS. The decoder of opcodes and their encoder undo each other (R80 to R94): a tag byte with its operand bytes
assembles to an opcode exactly when it is that opcode's encoding. -/

namespace Sys2Proof

/-! ### The class of a byte as a range of its values (R82, R94) -/

theorem classify_eq_index_iff (b : Byte) : classify b = .index ↔ b.toNat ≤ 0x3F := by
  revert b; decide

theorem classify_eq_diff_iff (b : Byte) : classify b = .diff ↔ 0x40 ≤ b.toNat ∧ b.toNat ≤ 0x7F := by
  revert b; decide

theorem classify_eq_luma_iff (b : Byte) : classify b = .luma ↔ 0x80 ≤ b.toNat ∧ b.toNat ≤ 0xBF := by
  revert b; decide

theorem classify_eq_run_iff (b : Byte) : classify b = .run ↔ 0xC0 ≤ b.toNat ∧ b.toNat ≤ 0xFD := by
  revert b; decide

theorem classify_eq_rgb_iff (b : Byte) : classify b = .rgb ↔ b.toNat = 0xFE := by
  revert b; decide

theorem classify_eq_rgba_iff (b : Byte) : classify b = .rgba ↔ b.toNat = 0xFF := by
  revert b; decide

/-! ### The opcode of a tag byte of each class, and the bytes of DIFF -/

section Assemble
variable (f : DiffFields) (tagByte : Byte)

theorem assemble_of_index (h : classify tagByte = .index) :
    assemble f tagByte [] = some (.index (tagByte.extractLsb' 0 6)) := by
  rw [assemble, h]

theorem assemble_of_diff (h : classify tagByte = .diff) : assemble f tagByte [] = some (diffOf f tagByte) := by
  rw [assemble, h]

theorem assemble_of_luma (second : Byte) (h : classify tagByte = .luma) :
    assemble f tagByte [second] = some (lumaOf tagByte second) := by
  rw [assemble, h]

theorem assemble_of_run (h : classify tagByte = .run) :
    assemble f tagByte [] = some (.run ((tagByte.extractLsb' 0 6).toNat + 1)) := by
  rw [assemble, h]

theorem assemble_of_rgb (r g b : Byte) (h : classify tagByte = .rgb) :
    assemble f tagByte [r, g, b] = some (.rgb r g b) := by
  rw [assemble, h]

theorem assemble_of_rgba (r g b a : Byte) (h : classify tagByte = .rgba) :
    assemble f tagByte [r, g, b, a] = some (.rgba r g b a) := by
  rw [assemble, h]

end Assemble

/-- The DIFF byte of three biased fields, in the order the parameter gives (R85). -/
def DiffFields.byte (f : DiffFields) (r g b : BitVec 2) : Byte :=
  diffByte (f.place r g b).1 (f.place r g b).2.1 (f.place r g b).2.2

theorem encode_diff (f : DiffFields) (dr dg db : Int) :
    encode f (.diff dr dg db) = [f.byte (addBias 2 2 dr) (addBias 2 2 dg) (addBias 2 2 db)] := rfl

theorem classify_diffFields_byte (f : DiffFields) (r g b : BitVec 2) : classify (f.byte r g b) = .diff :=
  classify_diffByte _ _ _

theorem diffOf_byte (f : DiffFields) (r g b : BitVec 2) :
    diffOf f (f.byte r g b) = .diff (unbias 2 r) (unbias 2 g) (unbias 2 b) := by
  obtain ⟨hhi, hmid, hlo⟩ := diffByte_fields (f.place r g b).1 (f.place r g b).2.1 (f.place r g b).2.2
  simp only [diffOf, DiffFields.byte, hhi, hmid, hlo, DiffFields.pick_place]

/-! ### What the two formats with biased fields read: operands in range, which are written as they were read -/

/-- A biased field stands for a value of its range (R91, R96). -/
theorem unbias_range {w : Nat} (bias : Int) (field : BitVec w) :
    -bias ≤ unbias bias field ∧ unbias bias field ≤ 2 ^ w - 1 - bias := by
  have hfield : (field.toNat : Int) < 2 ^ w := by exact_mod_cast field.isLt
  unfold unbias
  omega

theorem diffOf_wellFormed (f : DiffFields) (tagByte : Byte) : (diffOf f tagByte).WellFormed :=
  ⟨unbias_range 2 _, unbias_range 2 _, unbias_range 2 _⟩

theorem lumaOf_wellFormed (tagByte second : Byte) : (lumaOf tagByte second).WellFormed :=
  ⟨unbias_range 32 _, unbias_range 8 _, unbias_range 8 _⟩

theorem encode_diffOf (f : DiffFields) (tagByte : Byte) (h : classify tagByte = .diff) :
    encode f (diffOf f tagByte) = [tagByte] := by
  obtain ⟨-, -, -, hfields, -, -⟩ := tagByte_of_class tagByte
  rw [diffOf, encode_diff, addBias_unbias, addBias_unbias, addBias_unbias, DiffFields.byte, DiffFields.place_pick,
    ← hfields h]

theorem encode_lumaOf (f : DiffFields) (tagByte second : Byte) (h : classify tagByte = .luma) :
    encode f (lumaOf tagByte second) = [tagByte, second] := by
  obtain ⟨-, -, -, -, hfields, -⟩ := tagByte_of_class tagByte
  rw [lumaOf, encode, addBias_unbias, addBias_unbias, addBias_unbias, ← hfields h, ← lumaSecond_of_fields]

/-! ### Both directions, of a tag byte and its operand bytes -/

/-- The bytes of a well-formed opcode are a tag byte of its class and the operand bytes it assembles from. -/
theorem encode_assembles (f : DiffFields) (i : Instr) (h : i.WellFormed) :
    ∃ tagByte operands, encode f i = tagByte :: operands ∧ classify tagByte = i.tag ∧
      assemble f tagByte operands = some i := by
  cases i with
  | rgba r g b a => exact ⟨0xFF#8, [r, g, b, a], rfl, rfl, rfl⟩
  | rgb r g b => exact ⟨0xFE#8, [r, g, b], rfl, rfl, rfl⟩
  | index idx =>
    refine ⟨idx.setWidth 8, [], rfl, classify_index idx, ?_⟩
    rw [assemble_of_index f _ (classify_index idx), indexByte_field]
  | diff dr dg db =>
    obtain ⟨⟨hr0, hr1⟩, ⟨hg0, hg1⟩, ⟨hb0, hb1⟩⟩ := h
    refine ⟨_, [], encode_diff f dr dg db, classify_diffFields_byte f _ _ _, ?_⟩
    rw [assemble_of_diff f _ (classify_diffFields_byte f _ _ _), diffOf_byte, unbias_addBias, unbias_addBias,
      unbias_addBias] <;> omega
  | luma dg drg dbg =>
    obtain ⟨⟨hg0, hg1⟩, ⟨hr0, hr1⟩, ⟨hb0, hb1⟩⟩ := h
    refine ⟨_, [_], rfl, classify_lumaByte _, ?_⟩
    obtain ⟨hhi, hlo⟩ := lumaSecond_fields (addBias 4 8 drg) (addBias 4 8 dbg)
    rw [assemble_of_luma f _ _ (classify_lumaByte _), lumaOf, lumaByte_field, hhi, hlo, unbias_addBias,
      unbias_addBias, unbias_addBias] <;> omega
  | run n =>
    obtain ⟨h1, h62⟩ := h
    have hlen : (BitVec.ofNat 6 (n - 1)).toNat = n - 1 := by
      rw [BitVec.toNat_ofNat]
      omega
    have hclass : classify (runByte (BitVec.ofNat 6 (n - 1))) = .run := classify_runByte _ (by omega)
    refine ⟨_, [], rfl, hclass, ?_⟩
    rw [assemble_of_run f _ hclass, runByte_field, hlen, Nat.sub_add_cancel h1]

/-- What a tag byte and its operand bytes assemble to is well-formed, and those bytes are its encoding. -/
theorem encode_of_assemble (f : DiffFields) (tagByte : Byte) (operands : List Byte) (i : Instr)
    (h : assemble f tagByte operands = some i) : i.WellFormed ∧ encode f i = tagByte :: operands := by
  obtain ⟨hrgba, hrgb, hindex, -, -, hrun⟩ := tagByte_of_class tagByte
  have hcount := (assemble_isSome f tagByte operands).mp (by rw [h]; rfl)
  cases hclass : classify tagByte with
  | rgba =>
    rw [hclass] at hcount
    obtain ⟨r, g, b, a, rfl⟩ := List.length_eq_four.mp hcount
    obtain rfl := Option.some.inj ((assemble_of_rgba f tagByte r g b a hclass).symm.trans h)
    rw [hrgba hclass]
    exact ⟨trivial, rfl⟩
  | rgb =>
    rw [hclass] at hcount
    obtain ⟨r, g, b, rfl⟩ := List.length_eq_three.mp hcount
    obtain rfl := Option.some.inj ((assemble_of_rgb f tagByte r g b hclass).symm.trans h)
    rw [hrgb hclass]
    exact ⟨trivial, rfl⟩
  | index =>
    rw [hclass] at hcount
    obtain rfl := List.length_eq_zero_iff.mp hcount
    obtain rfl := Option.some.inj ((assemble_of_index f tagByte hclass).symm.trans h)
    exact ⟨trivial, congrArg (· :: []) (hindex hclass).symm⟩
  | diff =>
    rw [hclass] at hcount
    obtain rfl := List.length_eq_zero_iff.mp hcount
    obtain rfl := Option.some.inj ((assemble_of_diff f tagByte hclass).symm.trans h)
    exact ⟨diffOf_wellFormed f tagByte, encode_diffOf f tagByte hclass⟩
  | luma =>
    rw [hclass] at hcount
    obtain ⟨second, rfl⟩ := List.length_eq_one_iff.mp hcount
    obtain rfl := Option.some.inj ((assemble_of_luma f tagByte second hclass).symm.trans h)
    exact ⟨lumaOf_wellFormed tagByte second, encode_lumaOf f tagByte second hclass⟩
  | run =>
    rw [hclass] at hcount
    obtain rfl := List.length_eq_zero_iff.mp hcount
    obtain rfl := Option.some.inj ((assemble_of_run f tagByte hclass).symm.trans h)
    obtain ⟨hbyte, h61⟩ := hrun hclass
    constructor
    · exact ⟨by omega, by omega⟩
    · rw [encode, Nat.add_sub_cancel, BitVec.ofNat_toNat, BitVec.setWidth_eq, ← hbyte]

theorem assemble_eq_some_iff (f : DiffFields) (tagByte : Byte) (operands : List Byte) (i : Instr) :
    assemble f tagByte operands = some i ↔ i.WellFormed ∧ encode f i = tagByte :: operands := by
  constructor
  · exact encode_of_assemble f tagByte operands i
  · rintro ⟨hwf, henc⟩
    obtain ⟨t, ops, henc', -, hassemble⟩ := encode_assembles f i hwf
    obtain ⟨rfl, rfl⟩ := List.cons.inj (henc'.symm.trans henc)
    exact hassemble

/-- The tag byte of an opcode's bytes is of the opcode's class (R94). -/
theorem classify_of_encode (f : DiffFields) (i : Instr) (tagByte : Byte) (operands : List Byte) (hwf : i.WellFormed)
    (henc : encode f i = tagByte :: operands) : classify tagByte = i.tag := by
  obtain ⟨t, ops, henc', hclass, -⟩ := encode_assembles f i hwf
  obtain ⟨rfl, rfl⟩ := List.cons.inj (henc'.symm.trans henc)
  exact hclass

/-- As many operand bytes as the tag byte calls for make an opcode (R80, R93). -/
theorem exists_encode_eq (f : DiffFields) (tagByte : Byte) (operands : List Byte)
    (h : operands.length = operandCount (classify tagByte)) :
    ∃ i : Instr, i.WellFormed ∧ encode f i = tagByte :: operands := by
  obtain ⟨i, hi⟩ := Option.isSome_iff_exists.mp ((assemble_isSome f tagByte operands).mpr h)
  exact ⟨i, (assemble_eq_some_iff f tagByte operands i).mp hi⟩

/-! ### Both directions, of a byte sequence -/

/-- Decoding reads the encoding of a well-formed opcode, whatever follows it. -/
theorem decode_encode_append (f : DiffFields) (i : Instr) (rest : List Byte) (h : i.WellFormed) :
    decode f (encode f i ++ rest) = .ok (i, rest) := by
  obtain ⟨tagByte, operands, henc, -, hassemble⟩ := encode_assembles f i h
  have hcount := (assemble_isSome f tagByte operands).mp (by rw [hassemble]; rfl)
  rw [henc, List.cons_append, decode, ← hcount, List.take_left, List.drop_left, hassemble]

/-- Decoding reads nothing else. -/
theorem eq_encode_append_of_decode (f : DiffFields) (bytes rest : List Byte) (i : Instr)
    (h : decode f bytes = .ok (i, rest)) : i.WellFormed ∧ bytes = encode f i ++ rest := by
  cases bytes with
  | nil => cases h
  | cons tagByte tail =>
    rw [decode] at h
    split at h
    · next j hj =>
      cases h
      obtain ⟨hwf, henc⟩ := (assemble_eq_some_iff _ _ _ _).mp hj
      exact ⟨hwf, by rw [henc, List.cons_append, List.take_append_drop]⟩
    · cases h

/-- A tag byte with too few operand bytes behind it (R162). -/
theorem decode_of_short (f : DiffFields) (tagByte : Byte) (rest : List Byte)
    (h : rest.length < operandCount (classify tagByte)) : decode f (tagByte :: rest) = .error (.truncated tagByte) := by
  have hnone : assemble f tagByte rest = none := by
    rw [← Option.not_isSome_iff_eq_none, assemble_isSome]
    exact h.ne
  rw [decode, List.take_of_length_le h.le, hnone]

/-- Settles O5: the bytes of a well-formed opcode are a tag byte and the operand bytes it assembles from. -/
theorem decodeInvertsEncode : Obligations.DecodeInvertsEncode := decode_encode_append

/-- Settles O6: what assembles from a tag byte and its operand bytes is encoded by them. -/
theorem encodeInvertsDecode : Obligations.EncodeInvertsDecode := eq_encode_append_of_decode

/-- Settles O7: the operand bytes at hand are cut to the number the class calls for, or are too few. -/
theorem noEncodingIsIllegal : Obligations.NoEncodingIsIllegal := by
  intro f b rest
  refine ⟨fun henough => ?_, decode_of_short f b rest⟩
  obtain ⟨i, hwf, henc⟩ := exists_encode_eq f b (rest.take (operandCount (classify b))) (List.length_take_of_le henough)
  refine ⟨i, hwf, (classify_of_encode f i b _ hwf henc).symm, ?_⟩
  have hdecode := decode_encode_append f i (rest.drop (operandCount (classify b))) hwf
  rwa [henc, List.cons_append, List.take_append_drop] at hdecode

/-- Settles O4: the first byte is of the opcode's class, each class is a range, and every byte begins some opcode. -/
theorem tagBytesPartitionAllValues : Obligations.TagBytesPartitionAllValues := by
  intro f
  constructor
  · intro i b hwf hhead
    obtain ⟨operands, henc⟩ := List.head?_eq_some_iff.mp hhead
    have hclass := classify_of_encode f i b operands hwf henc
    cases i with
    | rgba r g b' a => exact BitVec.eq_of_toNat_eq ((classify_eq_rgba_iff b).mp hclass)
    | rgb r g b' => exact BitVec.eq_of_toNat_eq ((classify_eq_rgb_iff b).mp hclass)
    | index idx => exact (classify_eq_index_iff b).mp hclass
    | diff dr dg db => exact (classify_eq_diff_iff b).mp hclass
    | luma dg drg dbg => exact (classify_eq_luma_iff b).mp hclass
    | run n => exact (classify_eq_run_iff b).mp hclass
  · intro b
    obtain ⟨i, hwf, henc⟩ := exists_encode_eq f b (List.replicate (operandCount (classify b)) 0#8) List.length_replicate
    exact ⟨i, hwf, by rw [henc, List.head?_cons]⟩

/-- Settles O3: each class is a range of byte values. -/
theorem firstByteMapAndLengths : Obligations.FirstByteMapAndLengths := by
  refine ⟨fun b => ⟨?_, ?_, ?_, ?_, ?_, ?_⟩, rfl, rfl, rfl, rfl, rfl, rfl⟩
  · exact (classify_eq_index_iff b).mpr
  · exact (classify_eq_diff_iff b).mpr
  · exact (classify_eq_luma_iff b).mpr
  · exact (classify_eq_run_iff b).mpr
  · exact (classify_eq_rgb_iff b).mpr
  · exact (classify_eq_rgba_iff b).mpr

/-- Settles O8: the decoder runs on the six words. -/
theorem writtenOutWordsDecode : Obligations.WrittenOutWordsDecode := ⟨rfl, rfl, rfl, rfl, rfl, rfl⟩

end Sys2Proof
end

section
/-! PROOFS. Sequences of opcodes: the decoder's loop does what the opcodes say one after the other (R93, R95, R151). -/

namespace Sys2Proof

/-! ### The bytes of a sequence of opcodes -/

@[simp] theorem encodeAll_nil (f : DiffFields) : encodeAll f [] = [] := rfl

@[simp] theorem encodeAll_cons (f : DiffFields) (i : Instr) (is : List Instr) :
    encodeAll f (i :: is) = encode f i ++ encodeAll f is := List.flatMap_cons

@[simp] theorem encodeAll_append (f : DiffFields) (is js : List Instr) :
    encodeAll f (is ++ js) = encodeAll f is ++ encodeAll f js := List.flatMap_append

/-- The encoding of every instruction has the length of the opcode-width table (R90). -/
@[simp] theorem encode_length (f : DiffFields) (i : Instr) : (encode f i).length = i.length := by
  cases i with
  | rgba r g b a => exact Laws.EncodedLength.rgba r g b a f
  | rgb r g b => exact Laws.EncodedLength.rgb r g b f
  | index idx => exact Laws.EncodedLength.index idx f
  | diff dr dg db => exact Laws.EncodedLength.diff dr dg db f
  | luma dg drg dbg => exact Laws.EncodedLength.luma dg drg dbg f
  | run n => exact Laws.EncodedLength.run n f

/-- No opcode is empty, so a sequence has at least as many bytes as opcodes. -/
theorem length_le_encodeAll_length (f : DiffFields) (is : List Instr) : is.length ≤ (encodeAll f is).length := by
  induction is with
  | nil => exact Nat.le_refl 0
  | cons i is ih =>
    have hpos := i.length_pos
    rw [encodeAll_cons, List.length_append, encode_length, List.length_cons]
    omega

end Sys2Proof

namespace Sys2Proof.Machine

/-! ### The loop of R151 on a sequence of opcodes -/

theorem decLoop_of_fetch (f : DiffFields) (fuel : Nat) (d : Dec) (i : Instr) (rest : List Byte)
    (h : d.fetch f = .ok (i, rest)) : decLoop f (fuel + 1) d = decLoop f fuel (d.iterate i) := by
  rw [decLoop, h]

theorem decLoop_of_endOfInput (f : DiffFields) (fuel : Nat) (d : Dec) (h : d.fetch f = .error .endOfInput) :
    decLoop f (fuel + 1) d = .ok d.pix := by
  rw [decLoop, h]

/-- Steps 1 to 3 of an iteration: all of it that does not ask where the decoder reads. `iterate_reading` ties it to the
iteration. -/
def Dec.perform (d : Dec) (i : Instr) : Dec := (applyInstr i d.cachePrev).outPrev

/-- The decoder with its cursor at a place of an input. -/
def Dec.reading (input : List Byte) (cur : Nat) (d : Dec) : Dec := { d with input := input, cur := cur }

@[simp] theorem Dec.reading_pix (input : List Byte) (cur : Nat) (d : Dec) : (d.reading input cur).pix = d.pix := rfl

theorem Dec.start_eq_reading (drive : Drive) (payload : List Byte) :
    Dec.start drive payload = (Dec.start drive []).reading payload 0 := rfl

theorem Dec.fetch_reading (f : DiffFields) (input : List Byte) (cur : Nat) (d : Dec) :
    (d.reading input cur).fetch f = decode f (input.drop cur) := rfl

/-- No opcode's rule reads the input or the cursor (R153 to R158). -/
theorem Dec.perform_reading (input : List Byte) (cur : Nat) (d : Dec) (i : Instr) :
    (d.reading input cur).perform i = (d.perform i).reading input cur := by
  cases i <;> rfl

/-- An iteration whose bytes are all there: steps 1 to 3, and the cursor behind the opcode (R151, R160). -/
theorem Dec.iterate_reading (input : List Byte) (cur : Nat) (d : Dec) (i : Instr) (h : cur + i.length ≤ input.length) :
    (d.reading input cur).iterate i = (d.perform i).reading input (cur + i.length) := by
  calc (d.reading input cur).iterate i
      = ((d.reading input cur).perform i).advance i.length := Dec.iterate_of_le i (d.reading input cur) h
    _ = ((d.perform i).reading input cur).advance i.length := by rw [Dec.perform_reading]
    _ = (d.perform i).reading input (cur + i.length) := rfl

/-- From a place where a sequence of well-formed opcodes stands and nothing behind it, the loop performs them in order. -/
theorem decLoop_encodeAll (f : DiffFields) (is : List Instr) (hwf : ∀ i ∈ is, i.WellFormed) (fuel : Nat)
    (hfuel : is.length < fuel) (input : List Byte) (cur : Nat) (hinput : input.drop cur = encodeAll f is) (d : Dec) :
    decLoop f fuel (d.reading input cur) = .ok (is.foldl Dec.perform d).pix := by
  obtain ⟨fuel, rfl⟩ := Nat.exists_eq_add_one_of_ne_zero (Nat.ne_zero_of_lt hfuel)
  induction is generalizing fuel cur d with
  | nil =>
    have hfetch : (d.reading input cur).fetch f = .error .endOfInput := by
      rw [Dec.fetch_reading, hinput, encodeAll_nil, decode_nil]
    rw [decLoop_of_endOfInput f fuel _ hfetch, Dec.reading_pix, List.foldl_nil]
  | cons i is ih =>
    obtain ⟨hi, his⟩ := List.forall_mem_cons.mp hwf
    rw [encodeAll_cons] at hinput
    have hfetch : (d.reading input cur).fetch f = .ok (i, encodeAll f is) := by
      rw [Dec.fetch_reading, hinput, decode_encode_append f i _ hi]
    have hfits : cur + i.length ≤ input.length := by
      have hlen := congrArg List.length hinput
      have hpos := i.length_pos
      rw [List.length_drop, List.length_append, encode_length] at hlen
      omega
    have hbehind : input.drop (cur + i.length) = encodeAll f is := by
      rw [← List.drop_drop, hinput, ← encode_length f i, List.drop_left]
    have hless : is.length < fuel := Nat.lt_of_succ_lt_succ hfuel
    obtain ⟨fuel, rfl⟩ := Nat.exists_eq_add_one_of_ne_zero (Nat.ne_zero_of_lt hless)
    rw [decLoop_of_fetch f _ _ i _ hfetch, Dec.iterate_reading input cur d i hfits, List.foldl_cons]
    exact ih his _ hbehind _ _ hless

/-- `dec_payload` of a sequence of well-formed opcodes performs them from the start state. -/
theorem decPayload_encodeAll (cfg : Config) (is : List Instr) (hwf : ∀ i ∈ is, i.WellFormed) :
    decPayload cfg (encodeAll cfg.diffFields is) = .ok (is.foldl Dec.perform (Dec.start .buffer [])).pix := by
  rw [decPayload, Dec.start_eq_reading]
  exact decLoop_encodeAll cfg.diffFields is hwf _ (Nat.lt_succ_of_le (length_le_encodeAll_length _ is)) _ 0 rfl _

/-- Settles O30: the loop performs the opcodes in order, and `Dec.perform` is the obligation's step. -/
theorem opcodeSequencesAlwaysDecode : Obligations.OpcodeSequencesAlwaysDecode := decPayload_encodeAll

end Sys2Proof.Machine
end

section
/-! PROOFS. What the encoder emits, as opcodes: all well-formed, no DIFF of zeros, no LUMA in DIFF's range, and no two RUNs
side by side where one could be longer (R92, R95, R186, R201). -/

namespace Sys2Proof

/-- Well-formed, and neither a DIFF that changes nothing nor a LUMA that DIFF could say (R95). `encOpcodes_emittable` ties it
to the encoder. -/
structure Instr.Emittable (i : Instr) : Prop where
  wellFormed : i.WellFormed
  no_zero_diff : i ≠ .diff 0 0 0
  no_small_luma : ∀ dg drg dbg, i = .luma dg drg dbg →
    ¬ ((-2 ≤ dg + drg ∧ dg + drg ≤ 1) ∧ (-2 ≤ dg ∧ dg ≤ 1) ∧ (-2 ≤ dg + dbg ∧ dg + dbg ≤ 1))

/-- Of two neighbouring opcodes: a RUN with another behind it is a full one (R186). `encOpcodes_isChain` ties it to the
encoder. -/
def Instr.FullBefore (i j : Instr) : Prop := ∀ n m, i = .run n → j = .run m → n = Machine.runMax

end Sys2Proof

namespace Sys2Proof.Machine

/-! ### The encoder's output as a list of opcodes -/

/-- The opcodes of the loop of R184. `encLoop_eq_encodeAll` ties it to the bytes. -/
def encOpcodes (cfg : Config) (fuel : Nat) (prev : Pixel) (slots : Cache) (pixels : List Pixel) : List Instr :=
  match fuel, pixels with
  | 0, _ => []
  | _ + 1, [] => []
  | fuel + 1, px :: rest =>
    if px = prev then
      runOpcodes (stretch prev (px :: rest)) (stretch prev (px :: rest))
        ++ encOpcodes cfg fuel prev (if cfg.encRunCacheWrite then slots.write prev else slots)
            ((px :: rest).drop (stretch prev (px :: rest)))
    else selectOpcode cfg slots prev px :: encOpcodes cfg fuel px (slots.write px) rest

theorem encLoop_eq_encodeAll (cfg : Config) (fuel : Nat) (prev : Pixel) (slots : Cache) (pixels : List Pixel) :
    encLoop cfg fuel prev slots pixels = encodeAll cfg.diffFields (encOpcodes cfg fuel prev slots pixels) := by
  induction fuel generalizing prev slots pixels with
  | zero => rfl
  | succ fuel ih =>
    cases pixels with
    | nil => rfl
    | cons px rest =>
      by_cases h : px = prev
      · simp [encLoop, encOpcodes, eqPrev, h, ih]
      · simp [encLoop, encOpcodes, eqPrev, h, ih]

/-! ### Which opcodes the encoder emits -/

theorem diffOk_iff (d : Deltas) :
    diffOk d = true ↔ (-2 ≤ d.dr ∧ d.dr ≤ 1) ∧ (-2 ≤ d.dg ∧ d.dg ≤ 1) ∧ (-2 ≤ d.db ∧ d.db ≤ 1) := by
  simp [diffOk, and_assoc]

/-- The arms of the tag selector, with what is known where each is taken (R183). -/
theorem selectOpcode_cases (cfg : Config) (slots : Cache) (prev px : Pixel) :
    (hit slots px = true ∧ selectOpcode cfg slots prev px = emitIndex px) ∨
      (px.a ≠ prev.a ∧ selectOpcode cfg slots prev px = emitRgba px) ∨
      (px.a = prev.a ∧ diffOk (deltas cfg px prev) = true ∧
        selectOpcode cfg slots prev px = emitDiff (deltas cfg px prev)) ∨
      (px.a = prev.a ∧ diffOk (deltas cfg px prev) = false ∧ lumaOk (deltas cfg px prev) = true ∧
        selectOpcode cfg slots prev px = emitLuma (deltas cfg px prev)) ∨
      (px.a = prev.a ∧ diffOk (deltas cfg px prev) = false ∧ lumaOk (deltas cfg px prev) = false ∧
        selectOpcode cfg slots prev px = emitRgb px) := by
  by_cases hhit : hit slots px = true
  · exact .inl ⟨hhit, if_pos hhit⟩
  refine .inr ?_
  by_cases halpha : px.a = prev.a
  · refine .inr ?_
    cases hdiff : diffOk (deltas cfg px prev)
    · cases hluma : lumaOk (deltas cfg px prev) <;> simp [selectOpcode, alphaChanged, *]
    · simp [selectOpcode, alphaChanged, *]
  · exact .inl ⟨halpha, by simp [selectOpcode, alphaChanged, *]⟩

@[simp] theorem addDelta_zero (channel : Byte) : addDelta channel 0 = channel :=
  addDelta_eq_of_emod _ _ _ (by simp)

/-- Deltas of zero between pixels of one alpha are deltas of a pixel against itself. -/
theorem eq_of_deltas_zero (cfg : Config) (px prev : Pixel) (ha : px.a = prev.a) (hr : (deltas cfg px prev).dr = 0)
    (hg : (deltas cfg px prev).dg = 0) (hb : (deltas cfg px prev).db = 0) : px = prev := by
  rw [← addDeltas_deltas cfg px prev ha, hr, hg, hb]
  simp [addDeltas]

/-- What the tag selector chooses for a pixel that differs from the previous one. -/
theorem selectOpcode_emittable (cfg : Config) (slots : Cache) (prev px : Pixel) (hne : px ≠ prev) :
    Instr.Emittable (selectOpcode cfg slots prev px) := by
  have hwf := (selectOpcode_wellFormed cfg slots prev px).1
  rcases selectOpcode_cases cfg slots prev px with
    ⟨-, h⟩ | ⟨-, h⟩ | ⟨ha, -, h⟩ | ⟨-, hdiff, -, h⟩ | ⟨-, -, -, h⟩ <;> rw [h] at hwf ⊢
  · exact ⟨hwf, nofun, nofun⟩
  · exact ⟨hwf, nofun, nofun⟩
  · refine ⟨hwf, fun hzero => ?_, nofun⟩
    obtain ⟨hr, hg, hb⟩ := Instr.diff.inj hzero
    exact hne (eq_of_deltas_zero cfg px prev ha hr hg hb)
  · refine ⟨hwf, nofun, fun dg drg dbg hluma hsmall => ?_⟩
    obtain ⟨rfl, rfl, rfl⟩ := Instr.luma.inj hluma
    rw [add_sub_cancel, add_sub_cancel, ← diffOk_iff, hdiff] at hsmall
    exact Bool.false_ne_true hsmall
  · exact ⟨hwf, nofun, nofun⟩

/-- The opcodes of a stretch are RUNs of 1 to 62 pixels (R186). -/
theorem runOpcodes_emittable (fuel k : Nat) : ∀ i ∈ runOpcodes fuel k, Instr.Emittable i := by
  induction fuel generalizing k with
  | zero => exact fun _ h => absurd h List.not_mem_nil
  | succ fuel ih =>
    rw [runOpcodes]
    split
    · exact fun _ h => absurd h List.not_mem_nil
    · next hk =>
      refine List.forall_mem_cons.mpr ⟨⟨⟨?_, ?_⟩, nofun, nofun⟩, ih _⟩
      · exact Nat.le_min.mpr ⟨Nat.pos_of_ne_zero hk, by decide⟩
      · exact Nat.min_le_right k runMax

theorem encOpcodes_emittable (cfg : Config) (fuel : Nat) (prev : Pixel) (slots : Cache) (pixels : List Pixel) :
    ∀ i ∈ encOpcodes cfg fuel prev slots pixels, Instr.Emittable i := by
  induction fuel generalizing prev slots pixels with
  | zero => exact fun _ h => absurd h List.not_mem_nil
  | succ fuel ih =>
    cases pixels with
    | nil => exact fun _ h => absurd h List.not_mem_nil
    | cons px rest =>
      rw [encOpcodes]
      split
      · exact List.forall_mem_append.mpr ⟨runOpcodes_emittable _ _, ih _ _ _⟩
      · next hne => exact List.forall_mem_cons.mpr ⟨selectOpcode_emittable cfg slots prev px hne, ih _ _ _⟩

/-! ### Neighbouring RUNs (R186) -/

/-- Only the last RUN of a stretch is not full (R186). -/
theorem runOpcodes_isChain (fuel k : Nat) : (runOpcodes fuel k).IsChain Instr.FullBefore := by
  induction fuel generalizing k with
  | zero => exact .nil
  | succ fuel ih =>
    rw [runOpcodes]
    split
    · exact .nil
    · refine List.isChain_cons.mpr ⟨fun j hj n m hn _ => ?_, ih _⟩
      obtain rfl := Instr.run.inj hn
      refine Nat.min_eq_right (Nat.le_of_lt (Nat.lt_of_not_le fun hle => ?_))
      rw [Nat.min_eq_left hle, Nat.sub_self] at hj
      cases fuel <;> simp [runOpcodes] at hj

/-- The encoder's opcodes begin with a RUN only when the pixels begin with the previous one (R183). -/
theorem encOpcodes_head_ne_run (cfg : Config) (fuel : Nat) (prev : Pixel) (slots : Cache) (pixels : List Pixel)
    (h : pixels.head? ≠ some prev) (n : Nat) : (encOpcodes cfg fuel prev slots pixels).head? ≠ some (.run n) := by
  obtain _ | fuel := fuel
  · nofun
  cases pixels with
  | nil => nofun
  | cons px rest =>
    have hne : px ≠ prev := fun heq => h (congrArg some heq)
    rw [encOpcodes, if_neg hne, List.head?_cons]
    exact fun heq => (selectOpcode_wellFormed cfg slots prev px).2 n (Option.some.inj heq)

theorem stretch_cons_same (prev : Pixel) (rest : List Pixel) : stretch prev (prev :: rest) = stretch prev rest + 1 := by
  simp [stretch]

theorem stretch_cons_of_ne (prev px : Pixel) (rest : List Pixel) (h : px ≠ prev) : stretch prev (px :: rest) = 0 := by
  simp [stretch, h]

/-- Behind a stretch no pixel equals the previous one: the look-ahead took them all (R184). -/
theorem head?_drop_stretch (prev : Pixel) (pixels : List Pixel) :
    (pixels.drop (stretch prev pixels)).head? ≠ some prev := by
  intro h
  induction pixels with
  | nil => cases h
  | cons px rest ih =>
    by_cases hpx : px = prev
    · rw [hpx, stretch_cons_same, List.drop_succ_cons] at h
      exact ih h
    · rw [stretch_cons_of_ne prev px rest hpx, List.drop_zero] at h
      exact hpx (Option.some.inj h)

theorem encOpcodes_isChain (cfg : Config) (fuel : Nat) (prev : Pixel) (slots : Cache) (pixels : List Pixel) :
    (encOpcodes cfg fuel prev slots pixels).IsChain Instr.FullBefore := by
  induction fuel generalizing prev slots pixels with
  | zero => exact .nil
  | succ fuel ih =>
    cases pixels with
    | nil => exact .nil
    | cons px rest =>
      rw [encOpcodes]
      split
      · refine List.isChain_append.mpr ⟨runOpcodes_isChain _ _, ih _ _ _, fun i _ j hj n m _ hm => ?_⟩
        rw [hm] at hj
        exact absurd hj (encOpcodes_head_ne_run cfg fuel prev _ _ (head?_drop_stretch prev _) m)
      · refine List.isChain_cons.mpr ⟨fun j _ n m hn _ => ?_, ih _ _ _⟩
        exact absurd hn ((selectOpcode_wellFormed cfg slots prev px).2 n)

/-- Settles O44: the opcodes are `encOpcodes`, each emittable, and no RUN before its limit has a RUN behind it. -/
theorem encoderAvoidsZeroDiffSmallLumaAndSplitRuns : Obligations.EncoderAvoidsZeroDiffSmallLumaAndSplitRuns := by
  intro cfg pixels
  have hemit := encOpcodes_emittable cfg pixels.length initialPrev Cache.clear pixels
  have hchain := encOpcodes_isChain cfg pixels.length initialPrev Cache.clear pixels
  refine ⟨_, encLoop_eq_encodeAll cfg _ _ _ _, fun i hi => (hemit i hi).wellFormed,
    fun hmem => (hemit _ hmem).no_zero_diff rfl, fun dg drg dbg hmem => (hemit _ hmem).no_small_luma _ _ _ rfl, ?_⟩
  intro before after n m hsplit
  rw [hsplit, List.isChain_append_cons_cons] at hchain
  obtain ⟨-, hfull, -⟩ := hchain
  exact hfull n m rfl rfl

end Sys2Proof.Machine
end

section
/-! PROOFS. The pixel hash as a sum of odd multiples of the channels modulo 64 (R110, R111), and the one slot that a cache
write touches (R113 to R116). -/

namespace Sys2Proof.Machine

/-- Settles O19: the hash is the sum's remainder, and the worked example is evaluated. -/
theorem pixelHashFormula : Obligations.PixelHashFormula := ⟨pixelHash_toNat, by decide⟩

/-- The sum of R110 taken in 6-bit arithmetic, on the low six bits of each channel (R111). -/
theorem pixelHash_eq_sixBit_sum (p : Pixel) :
    pixelHash p = 3#6 * p.r.extractLsb' 0 6 + 5#6 * p.g.extractLsb' 0 6 + 7#6 * p.b.extractLsb' 0 6
      + 11#6 * p.a.extractLsb' 0 6 := by
  apply BitVec.eq_of_toNat_eq
  simp only [pixelHash_toNat, BitVec.toNat_add, BitVec.toNat_mul, BitVec.toNat_ofNat, BitVec.extractLsb'_toNat,
    Nat.shiftRight_zero]
  omega

/-- An odd weight is invertible modulo 64, so a weighted channel is fixed by the sum modulo 64 and the rest of the sum. -/
theorem weighted_mod_64_eq_iff (weight rest x y : Nat) (hodd : Nat.Coprime 64 weight) :
    (x * weight + rest) % 64 = (y * weight + rest) % 64 ↔ x % 64 = y % 64 := by
  constructor
  · intro h
    exact Nat.ModEq.cancel_right_of_coprime hodd (Nat.ModEq.add_right_cancel' rest h)
  · intro h
    exact Nat.ModEq.add_right rest (Nat.ModEq.mul_right weight h)

/-- Pixels collide exactly when the sums of R110 agree modulo 64. -/
theorem pixelHash_eq_iff (p q : Pixel) :
    pixelHash p = pixelHash q ↔
      (p.r.toNat * 3 + p.g.toNat * 5 + p.b.toNat * 7 + p.a.toNat * 11) % 64 =
        (q.r.toNat * 3 + q.g.toNat * 5 + q.b.toNat * 7 + q.a.toNat * 11) % 64 := by
  rw [← BitVec.toNat_inj, pixelHash_toNat, pixelHash_toNat]

/-- Settles O20: the 6-bit sum, and for each channel the oddness of its weight. -/
theorem hashOfSixBitDatapath : Obligations.HashOfSixBitDatapath := by
  intro p
  refine ⟨pixelHash_eq_sixBit_sum p, fun x => ⟨?_, ?_, ?_, ?_⟩⟩ <;> rw [pixelHash_eq_iff]
  · rw [← weighted_mod_64_eq_iff 3 (p.g.toNat * 5 + p.b.toNat * 7 + p.a.toNat * 11) x.toNat p.r.toNat (by decide)]
    simp only [Nat.add_assoc]
  · rw [← weighted_mod_64_eq_iff 5 (p.r.toNat * 3 + p.b.toNat * 7 + p.a.toNat * 11) x.toNat p.g.toNat (by decide)]
    simp only [Nat.add_assoc, Nat.add_left_comm]
  · rw [← weighted_mod_64_eq_iff 7 (p.r.toNat * 3 + p.g.toNat * 5 + p.a.toNat * 11) x.toNat p.b.toNat (by decide)]
    simp only [Nat.add_assoc, Nat.add_left_comm]
  · rw [← weighted_mod_64_eq_iff 11 (p.r.toNat * 3 + p.g.toNat * 5 + p.b.toNat * 7) x.toNat p.a.toNat (by decide)]
    simp only [Nat.add_comm]

/-- Settles O21: the three laws of the cache, which the model states of `Cache.read`. -/
theorem cacheWriteTouchesOneSlot : Obligations.CacheWriteTouchesOneSlot :=
  ⟨Cache.read_clear, Cache.read_write_self, Cache.read_write_other⟩

end Sys2Proof.Machine
end

section
/-! PROOFS. The invariant of the machine: it holds after power-on, each agent's operations keep the agent's own part of it,
and so every step keeps it. -/

namespace Sys2Proof.Machine

/-! ### What a step that answers a next state can be -/

/-- A step that answers a next state, by whose turn it is: DEC's, ENC's, FRAME's after either pass, or the host's, with no
move queued or with one (log entries 4 and 5). -/
theorem step_next_cases {s t : State} (h : step s = .next t) :
    (s.dec.running = true ∧ t = s.withDec (s.dec.turn Config.spec)) ∨
    (s.dec.running = false ∧ s.enc.running = true ∧ t = s.withEnc (s.enc.turn Config.spec)) ∨
    (s.dec.running = false ∧ s.frame.phase = .decoding ∧ t = s.withFrame (frameAfterDec s)) ∨
    (s.enc.running = false ∧ s.frame.phase = .encoding ∧ t = s.withFrame (frameAfterEnc s)) ∨
    (s.HostsTurn ∧ s.inbox = [] ∧ t = s) ∨
    (s.HostsTurn ∧ ∃ move rest, s.inbox = move :: rest ∧
      hostMove Config.spec move { s with inbox := rest } = .next t) := by
  cases hd : s.dec.running with
  | true =>
    rw [step_of_dec_running s hd] at h
    exact .inl ⟨rfl, (Host.Outcome.next.inj h).symm⟩
  | false =>
  refine .inr ?_
  cases he : s.enc.running with
  | true =>
    rw [step_of_enc_running s hd he] at h
    exact .inl ⟨rfl, rfl, (Host.Outcome.next.inj h).symm⟩
  | false =>
  refine .inr ?_
  cases hf : s.frame.phase with
  | decoding =>
    rw [step_eq_stepWith, stepWith_of_decoding _ s hd he hf] at h
    exact .inl ⟨rfl, rfl, (Host.Outcome.next.inj h).symm⟩
  | encoding =>
    rw [step_eq_stepWith, stepWith_of_encoding _ s hd he hf] at h
    exact .inr (.inl ⟨rfl, rfl, (Host.Outcome.next.inj h).symm⟩)
  | ready =>
    refine .inr (.inr ?_)
    cases hi : s.inbox with
    | nil =>
      rw [step_eq_stepWith, stepWith_of_host _ s ⟨hd, he, hf⟩, hostTurn, hi] at h
      exact .inl ⟨⟨hd, he, hf⟩, rfl, (Host.Outcome.next.inj h).symm⟩
    | cons move rest =>
      rw [step_of_host_move s move rest ⟨hd, he, hf⟩ hi] at h
      exact .inr ⟨⟨hd, he, hf⟩, move, rest, rfl, h⟩

theorem Dec.running_iff (d : Dec) : d.running = true ↔ d.status = .busy ∧ d.drive = .buffer := by
  simp [Dec.running]

theorem Dec.status_of_listening (d : Dec) (h : d.listening = true) : d.status = .busy := by
  simp only [Dec.listening, Bool.and_eq_true, beq_iff_eq] at h
  exact h.1

/-! ### The encoder's part (R25, R27, R118, R192, R194) -/

section EncInv
variable {e : Enc}

theorem Enc.inv_start (drive : Drive) (pixels : List Pixel) : (Enc.start drive pixels).Inv where
  cacheHashed := Cache.hashed_clear
  runInRange := Nat.zero_le _
  posInRange := Nat.zero_le _
  prevCached := .inl rfl
  noError := nofun

theorem Enc.Inv.emit (h : e.Inv) (bytes : List Byte) : (e.emit bytes).Inv := { h with }

theorem Enc.Inv.setRun (h : e.Inv) (n : BitVec 6) (hn : n.toNat ≤ 61) : (e.setRun n).Inv :=
  { h with runInRange := hn }

theorem Enc.Inv.finish (h : e.Inv) : e.finish.Inv := { h with noError := nofun }

theorem Enc.Inv.nextPixel (h : e.Inv) (hpos : e.pos < e.px.length) : e.nextPixel.Inv := { h with posInRange := hpos }

/-- The previous pixel and its slot are written together (R192). -/
theorem Enc.Inv.update (h : e.Inv) (px : Pixel) : (e.update px).Inv :=
  { h with
    cacheHashed := Cache.hashed_write e.cache px h.cacheHashed
    prevCached := .inr (Cache.read_write_self e.cache px) }

/-- The write of a pixel that a run absorbs is an update that leaves the previous pixel (R192). -/
theorem Enc.Inv.runUpdate (h : e.Inv) (cfg : Config) : (e.runUpdate cfg e.prev).Inv := by
  unfold Enc.runUpdate
  split
  · exact h.update e.prev
  · exact h

theorem Enc.Inv.flush (h : e.Inv) (f : DiffFields) : (e.flush f).Inv := by
  unfold Enc.flush
  split
  · exact h
  · exact (h.emit _).setRun 0#6 (Nat.zero_le _)

/-- The counter returns to 0 where it would become 62 (R25). -/
theorem Enc.Inv.extendRun (h : e.Inv) (f : DiffFields) : (e.extendRun f).Inv := by
  have hrange := h.runInRange
  by_cases hlimit : e.run.toNat = 61
  · rw [Enc.extendRun_at_limit f e (BitVec.eq_of_toNat_eq hlimit)]
    exact (h.emit _).setRun 0#6 (Nat.zero_le _)
  · rw [Enc.extendRun_below f e (by omega)]
    refine h.setRun _ ?_
    rw [BitVec.toNat_add, BitVec.toNat_ofNat]
    omega

theorem Enc.Inv.pixelEvent (h : e.Inv) (cfg : Config) (px : Pixel) : (e.pixelEvent cfg px).Inv := by
  by_cases heq : px = e.prev
  · obtain ⟨hprev, -⟩ := Enc.extendRun_frame cfg.diffFields e
    rw [Enc.pixelEvent_of_eq cfg px e heq, heq, ← hprev]
    exact (h.extendRun cfg.diffFields).runUpdate cfg
  · rw [Enc.pixelEvent_of_ne cfg px e heq]
    exact ((h.flush cfg.diffFields).emit _).update px

theorem Enc.Inv.finishEvent (h : e.Inv) (cfg : Config) : (e.finishEvent cfg).Inv := (h.flush cfg.diffFields).finish

theorem Enc.Inv.turn (h : e.Inv) (cfg : Config) : (e.turn cfg).Inv := by
  unfold Enc.turn
  split
  · next px hpx =>
    obtain ⟨hlt, -⟩ := List.getElem?_eq_some_iff.mp hpx
    obtain ⟨hinput, hpos, -⟩ := Enc.pixelEvent_frame cfg px e
    exact (h.pixelEvent cfg px).nextPixel (by rwa [hinput, hpos])
  · exact h.finishEvent cfg

end EncInv

/-- A turn of the encoder leaves its drive, and a pass that has begun has begun (R31). -/
theorem Enc.turn_begun (cfg : Config) (e : Enc) (h : e.drive = .buffer ∧ e.status ≠ .idle) :
    (e.turn cfg).drive = .buffer ∧ (e.turn cfg).status ≠ .idle := by
  unfold Enc.turn
  split
  · next px _ =>
    obtain ⟨-, -, hdrive, hstatus⟩ := Enc.pixelEvent_frame cfg px e
    rwa [Enc.nextPixel_drive, Enc.nextPixel_status, hdrive, hstatus]
  · obtain ⟨-, -, -, hdrive, -⟩ := Enc.flush_frame cfg.diffFields e
    exact ⟨hdrive.trans h.1, nofun⟩

/-! ### The decoder's part (R26, R118, R165, R222, R227) -/

section DecInv
variable {d : Dec}

/-- While the pass is busy, nothing is claimed of errors. -/
theorem Dec.inv_of_busy (hbusy : d.status = .busy) (hcache : d.cache.Hashed) (hop : d.op.Sound)
    (hcur : d.cur ≤ d.input.length) : d.Inv where
  cacheHashed := hcache
  latchSound := hop
  curInRange := hcur
  onlyTruncated := by simp [hbusy]
  noPartialOutput := by simp [hbusy]

theorem Dec.inv_start (drive : Drive) (payload : List Byte) : (Dec.start drive payload).Inv :=
  Dec.inv_of_busy rfl Cache.hashed_clear trivial (Nat.zero_le _)

theorem Dec.Inv.cachePrev (h : d.Inv) : d.cachePrev.Inv :=
  { h with cacheHashed := Cache.hashed_write d.cache d.prev h.cacheHashed }

theorem Dec.Inv.finish (h : d.Inv) : d.finish.Inv := { h with onlyTruncated := nofun, noPartialOutput := nofun }

theorem Dec.Inv.raise_truncated (h : d.Inv) : (d.raise .truncated).Inv :=
  { h with
    onlyTruncated := fun _ hcause => (Status.doneErr.inj hcause).symm
    noPartialOutput := fun _ _ => rfl }

theorem Dec.Inv.truncate (h : d.Inv) : d.truncate.Inv := h.cachePrev.raise_truncated

/-- An opcode read at the cursor lies within IN (R26, R90). -/
theorem Dec.cur_add_length_le_of_fetch (f : DiffFields) (i : Instr) (rest : List Byte) (h : d.fetch f = .ok (i, rest)) :
    d.cur + i.length ≤ d.input.length := by
  obtain ⟨-, hbytes⟩ := eq_encode_append_of_decode f _ rest i h
  have hlength := congrArg List.length hbytes
  rw [List.length_drop, List.length_append, encode_length] at hlength
  have hpos := i.length_pos
  omega

/-- A complete iteration of a busy pass: its cache is that of step 1, its cursor stops within IN (R151). -/
theorem Dec.Inv.iterate (h : d.Inv) (hbusy : d.status = .busy) (i : Instr) (hfits : d.cur + i.length ≤ d.input.length) :
    (d.iterate i).Inv := by
  obtain ⟨hstatus, -, hcache, hcur, hop, hinput⟩ := applyInstr_frame i d.cachePrev
  rw [Dec.iterate_of_le i d hfits]
  apply Dec.inv_of_busy
  · exact hstatus.trans hbusy
  · rw [Dec.advance_cache, Dec.outPrev_cache, hcache]
    exact h.cachePrev.cacheHashed
  · rw [Dec.advance_op, Dec.outPrev_op, hop]
    exact h.latchSound
  · rw [Dec.advance_cur, Dec.advance_input, Dec.outPrev_cur, Dec.outPrev_input, hcur, hinput]
    exact hfits

theorem Dec.Inv.turn (h : d.Inv) (hbusy : d.status = .busy) (cfg : Config) : (d.turn cfg).Inv := by
  unfold Dec.turn
  split
  · next i rest hfetch => exact h.iterate hbusy i (Dec.cur_add_length_le_of_fetch cfg.diffFields i rest hfetch)
  · exact h.finish
  · exact h.truncate

/-- Completing an opcode leaves the cache and the latch (R153 to R158, R165). -/
theorem Dec.completeOpcode_cache_op (f : DiffFields) (tagByte : Byte) (operands : List Byte) (d : Dec) :
    (d.completeOpcode f tagByte operands).cache = d.cache ∧ (d.completeOpcode f tagByte operands).op = d.op := by
  unfold Dec.completeOpcode
  split
  · next i _ =>
    obtain ⟨-, -, hcache, -, hop, -⟩ := applyInstr_frame i d
    exact ⟨hcache, hop⟩
  · exact ⟨rfl, rfl⟩

/-- A byte writes the cache in step 1 of an opcode only (R152, R165). -/
theorem Dec.Inv.byteEvent_cacheHashed (h : d.Inv) (f : DiffFields) (b : Byte) : (d.byteEvent f b).cache.Hashed := by
  unfold Dec.byteEvent
  split
  · split
    · rw [(Dec.completeOpcode_cache_op f b [] d.cachePrev).1]
      exact h.cachePrev.cacheHashed
    · exact h.cachePrev.cacheHashed
  · next tagByte need got _ =>
    split
    · exact h.cacheHashed
    · rw [Dec.setOp_cache, (Dec.completeOpcode_cache_op f tagByte (got ++ [b]) d).1]
      exact h.cacheHashed

/-- The latch opens for a tag byte that calls for operands, and closes with the last of them (R165). -/
theorem Dec.Inv.byteEvent_latchSound (h : d.Inv) (f : DiffFields) (b : Byte) : (d.byteEvent f b).op.Sound := by
  have hsound := h.latchSound
  unfold Dec.byteEvent
  split
  · next htag =>
    split
    · rw [(Dec.completeOpcode_cache_op f b [] d.cachePrev).2, Dec.cachePrev_op, htag]
      trivial
    · next hneed => exact ⟨rfl, Nat.pos_of_ne_zero hneed⟩
  · next tagByte need got hopen =>
    rw [hopen] at hsound
    split
    · next hmore => exact ⟨hsound.1, hmore⟩
    · trivial

theorem Dec.Inv.byteEvent (h : d.Inv) (hbusy : d.status = .busy) (f : DiffFields) (b : Byte) : (d.byteEvent f b).Inv := by
  obtain ⟨hinput, hcur, -, hstatus⟩ := Dec.byteEvent_frame f b d
  refine Dec.inv_of_busy (hstatus.trans hbusy) (h.byteEvent_cacheHashed f b) (h.byteEvent_latchSound f b) ?_
  rw [hcur, hinput]
  exact h.curInRange

theorem Dec.Inv.finishEvent (h : d.Inv) : d.finishEvent.Inv := by
  unfold Dec.finishEvent
  split
  · exact h.finish
  · exact h.raise_truncated

end DecInv

/-- An iteration leaves the drive, and a busy pass is then busy or over (R31). -/
theorem Dec.iterate_begun (i : Instr) (d : Dec) (h : d.drive = .buffer ∧ d.status ≠ .idle) :
    (d.iterate i).drive = .buffer ∧ (d.iterate i).status ≠ .idle := by
  obtain ⟨hstatus, hdrive, -⟩ := applyInstr_frame i d.cachePrev
  by_cases hcomplete : i.length = 1 ∨ d.cur + i.length ≤ d.input.length
  · rw [Dec.iterate_of_complete i d hcomplete, Dec.advance_drive, Dec.advance_status, Dec.outPrev_drive,
      Dec.outPrev_status, hdrive, hstatus]
    exact h
  · have hpos := i.length_pos
    rw [Dec.iterate_of_lt i d (by omega) (by omega)]
    exact ⟨h.1, nofun⟩

/-- A turn of the decoder leaves its drive, and a pass that has begun has begun (R31). -/
theorem Dec.turn_begun (cfg : Config) (d : Dec) (h : d.drive = .buffer ∧ d.status ≠ .idle) :
    (d.turn cfg).drive = .buffer ∧ (d.turn cfg).status ≠ .idle := by
  unfold Dec.turn
  split
  · next i _ _ => exact Dec.iterate_begun i d h
  · exact ⟨h.1, nofun⟩
  · exact ⟨h.1, nofun⟩

/-! ### The container's part (R136, R137, R139, R227) -/

section FrameInv
variable {s : State}

theorem State.FrameInv.withDec (h : s.FrameInv) (d : Dec)
    (hbegun : s.frame.phase = .decoding → d.drive = .buffer ∧ d.status ≠ .idle) : (s.withDec d).FrameInv :=
  { h with decBegun := hbegun }

theorem State.FrameInv.withEnc (h : s.FrameInv) (e : Enc)
    (hbegun : s.frame.phase = .encoding → e.drive = .buffer ∧ e.status ≠ .idle) : (s.withEnc e).FrameInv :=
  { h with encBegun := hbegun }

theorem State.frameInv_raise (s : State) (f : Frame) (cause : Cause) : (s.withFrame (f.raise cause)).FrameInv where
  busyIffWaiting := by simp
  countMatches := nofun
  noPartialImage := fun _ _ => rfl
  decBegun := nofun
  encBegun := nofun

theorem State.frameInv_deliver (s : State) (f : Frame) (result : Option Image)
    (hcount : ∀ image, result = some image →
      image.pixels.length = image.header.width.toNat * image.header.height.toNat) :
    (s.withFrame (f.deliver result)).FrameInv where
  busyIffWaiting := by simp
  countMatches := hcount
  noPartialImage := nofun
  decBegun := nofun
  encBegun := nofun

theorem State.frameInv_awaitDec (s : State) (f : Frame) (header : Header)
    (hbegun : s.dec.drive = .buffer ∧ s.dec.status ≠ .idle) : (s.withFrame (f.awaitDec header)).FrameInv where
  busyIffWaiting := by simp
  countMatches := nofun
  noPartialImage := nofun
  decBegun := fun _ => hbegun
  encBegun := nofun

theorem State.frameInv_awaitEnc (s : State) (f : Frame) (header : Header)
    (hbegun : s.enc.drive = .buffer ∧ s.enc.status ≠ .idle) : (s.withFrame (f.awaitEnc header)).FrameInv where
  busyIffWaiting := by simp
  countMatches := nofun
  noPartialImage := nofun
  decBegun := nofun
  encBegun := fun _ => hbegun

/-- The image that FRAME returns has passed the check of its pixel count (R139). -/
theorem frameClose_countMatches (header : Header) (pixels : List Pixel) (image : Image)
    (h : frameClose header pixels = .ok image) :
    image.pixels.length = image.header.width.toNat * image.header.height.toNat := by
  unfold frameClose at h
  split at h
  · next hcount =>
    obtain rfl := Except.ok.inj h
    exact hcount
  · cases h

theorem State.FrameInv.afterDec (h : s.FrameInv) : (s.withFrame (frameAfterDec s)).FrameInv := by
  unfold frameAfterDec
  split
  · split
    · next image hclose =>
      refine s.frameInv_deliver _ _ fun _ himage => ?_
      obtain rfl := Option.some.inj himage
      exact frameClose_countMatches _ _ _ hclose
    · exact s.frameInv_raise _ _
  · exact s.frameInv_raise _ _
  · exact h
  · exact h

theorem State.FrameInv.afterEnc (h : s.FrameInv) : (s.withFrame (frameAfterEnc s)).FrameInv := by
  unfold frameAfterEnc
  split
  · exact s.frameInv_deliver _ _ nofun
  · exact s.frameInv_raise _ _
  · exact h
  · exact h

end FrameInv

/-! ### The machine -/

section MachineInv
variable {s : State}

theorem State.Inv.withFrame (h : s.Inv) (f : Frame) (hframe : (s.withFrame f).FrameInv) : (s.withFrame f).Inv :=
  ⟨h.enc, h.dec, hframe⟩

/-- The host's queue is not in the invariant. -/
theorem State.Inv.withInbox (h : s.Inv) (moves : List HostMove) : State.Inv { s with inbox := moves } :=
  ⟨h.enc, h.dec, { h.frame with }⟩

theorem State.Inv.decTurn (h : s.Inv) (hrun : s.dec.running = true) (cfg : Config) : (s.withDec (s.dec.turn cfg)).Inv := by
  obtain ⟨hbusy, -⟩ := s.dec.running_iff.mp hrun
  exact ⟨h.enc, h.dec.turn hbusy cfg, h.frame.withDec _ fun hphase => Dec.turn_begun cfg s.dec (h.frame.decBegun hphase)⟩

theorem State.Inv.encTurn (h : s.Inv) (cfg : Config) : (s.withEnc (s.enc.turn cfg)).Inv :=
  ⟨h.enc.turn cfg, h.dec, h.frame.withEnc _ fun hphase => Enc.turn_begun cfg s.enc (h.frame.encBegun hphase)⟩

/-- While FRAME waits for no pass, the host may put the decoder in any state that meets its own part. -/
theorem State.Inv.withDec_of_ready (h : s.Inv) (hready : s.frame.phase = .ready) {d : Dec} (hd : d.Inv) :
    (s.withDec d).Inv :=
  ⟨h.enc, hd, h.frame.withDec d fun hphase => by simp [hready] at hphase⟩

theorem State.Inv.withEnc_of_ready (h : s.Inv) (hready : s.frame.phase = .ready) {e : Enc} (he : e.Inv) :
    (s.withEnc e).Inv :=
  ⟨he, h.dec, h.frame.withEnc e fun hphase => by simp [hready] at hphase⟩

theorem State.Inv.beginFrameDecode (h : s.Inv) (hready : s.frame.phase = .ready) (file : List Byte) :
    (beginFrameDecode file s).Inv := by
  unfold Machine.beginFrameDecode
  split
  · exact h.withFrame _ (s.frameInv_raise _ _)
  · next header payload _ =>
    exact (h.withDec_of_ready hready (Dec.inv_start .buffer payload)).withFrame _
      (State.frameInv_awaitDec _ _ header ⟨rfl, nofun⟩)

/-- A guarded Start has no next state but the one it leads to. -/
theorem eq_of_guarded_start {busy : Prop} [Decidable busy] {reason : Refusal} {u t : State}
    (h : (if busy then .refused reason else .next u : Host.Outcome State Fault Refusal) = .next t) : u = t := by
  split at h
  · cases h
  · exact Host.Outcome.next.inj h

/-- A guarded event has a next state only while its agent is listening, and no other than the one it leads to. -/
theorem eq_of_guarded_event {listening : Bool} {reason : Refusal} {u t : State}
    (h : (if listening = true then .next u else .refused reason : Host.Outcome State Fault Refusal) = .next t) :
    listening = true ∧ u = t := by
  split at h
  · next hl => exact ⟨hl, Host.Outcome.next.inj h⟩
  · cases h

/-- A move of the host that has a next state keeps the invariant, in the spec's own build. -/
theorem State.Inv.hostMove (h : s.Inv) (hready : s.frame.phase = .ready) (move : HostMove) {t : State}
    (ht : hostMove Config.spec move s = .next t) : t.Inv := by
  cases move with
  | startDec payload =>
    obtain rfl := eq_of_guarded_start ht
    exact h.withDec_of_ready hready (Dec.inv_start .buffer payload)
  | startEnc pixels =>
    obtain rfl := eq_of_guarded_start ht
    exact h.withEnc_of_ready hready (Enc.inv_start .buffer pixels)
  | frameDecode file =>
    obtain rfl := eq_of_guarded_start ht
    exact h.beginFrameDecode hready file
  | frameEncode width height channels colorspace pixels =>
    rw [Machine.hostMove] at ht
    split at ht
    · cases ht
    · obtain rfl := eq_of_guarded_start ht
      exact (h.withEnc_of_ready hready (Enc.inv_start .buffer pixels)).withFrame _
        (State.frameInv_awaitEnc _ _ _ ⟨rfl, nofun⟩)
  | openDec =>
    obtain rfl := eq_of_guarded_start ht
    exact h.withDec_of_ready hready (Dec.inv_start .stream [])
  | byteDec b =>
    obtain ⟨hlistening, rfl⟩ := eq_of_guarded_event ht
    exact h.withDec_of_ready hready (h.dec.byteEvent (s.dec.status_of_listening hlistening) _ b)
  | finishDec =>
    obtain ⟨-, rfl⟩ := eq_of_guarded_event ht
    exact h.withDec_of_ready hready h.dec.finishEvent
  | openEnc =>
    obtain rfl := eq_of_guarded_start ht
    exact h.withEnc_of_ready hready (Enc.inv_start .stream [])
  | pixelEnc px =>
    obtain ⟨-, rfl⟩ := eq_of_guarded_event ht
    exact h.withEnc_of_ready hready (h.enc.pixelEvent _ px)
  | finishEnc =>
    obtain ⟨-, rfl⟩ := eq_of_guarded_event ht
    exact h.withEnc_of_ready hready (h.enc.finishEvent _)

end MachineInv

/-- Settles O57: each turn keeps the part of the agent whose turn it is, and what FRAME's part says of that agent. -/
theorem stepKeepsInvariant : Obligations.StepKeepsInvariant := by
  intro s t h hstep
  rcases step_next_cases hstep with
    ⟨hrun, rfl⟩ | ⟨-, -, rfl⟩ | ⟨-, -, rfl⟩ | ⟨-, -, rfl⟩ | ⟨-, -, rfl⟩ |
      ⟨⟨-, -, hready⟩, move, rest, -, hmove⟩
  · exact h.decTurn hrun Config.spec
  · exact h.encTurn Config.spec
  · exact h.withFrame _ h.frame.afterDec
  · exact h.withFrame _ h.frame.afterEnc
  · exact h
  · exact (h.withInbox rest).hostMove hready move hmove

/-- Settles O56: the registers after power-on are those of a Start, but no pass is busy (log entry 1), and
FRAME is ready with no image (log entry 2). -/
theorem resetMeetsInvariant : Obligations.ResetMeetsInvariant where
  enc := { Enc.inv_start .buffer [] with noError := nofun }
  dec := { Dec.inv_start .buffer [] with onlyTruncated := nofun, noPartialOutput := nofun }
  frame := {
    busyIffWaiting := by decide
    countMatches := nofun
    noPartialImage := nofun
    decBegun := nofun
    encBegun := nofun }

end Sys2Proof.Machine
end

section
/-! PROOFS. The container's functions on bytes: what a header is written as and read from, which check of a file fails first,
and where the parts of an encoded file stand (R130 to R141). -/

namespace Sys2Proof.Machine

/-! ### The header (R131, R132) -/

/-- A word is the big-endian sum of its four bytes (R54). -/
theorem toNat_eq_be32_sum (v : BitVec 32) :
    v.toNat = (v.extractLsb' 24 8).toNat * 2 ^ 24 + (v.extractLsb' 16 8).toNat * 2 ^ 16 +
      (v.extractLsb' 8 8).toNat * 2 ^ 8 + (v.extractLsb' 0 8).toNat := by
  rw [← fromBe32_toNat, fromBe32_extract]

@[simp] theorem magic_length : magic.length = 4 := rfl

@[simp] theorem endMarker_length : endMarker.length = 8 := rfl

@[simp] theorem serializeHeader_length (h : Header) : (serializeHeader h).length = 14 := rfl

/-- Settles O48: `be32` writes the bytes of which the word is the big-endian sum; the worked example is evaluated. -/
theorem serializedHeaderBytes : Obligations.SerializedHeaderBytes :=
  ⟨fun h => ⟨_, _, _, _, _, _, _, _, rfl, toNat_eq_be32_sum h.width, toNat_eq_be32_sum h.height, rfl⟩, by decide⟩

/-- The bytes of a file that is long enough for a header, one by one. -/
theorem eq_headerBytes_append (bytes : List Byte) (h : 14 ≤ bytes.length) :
    bytes = bytes[0] :: bytes[1] :: bytes[2] :: bytes[3] :: bytes[4] :: bytes[5] :: bytes[6] :: bytes[7] :: bytes[8] ::
      bytes[9] :: bytes[10] :: bytes[11] :: bytes[12] :: bytes[13] :: bytes.drop 14 := by
  simp only [List.getElem_cons_drop, List.drop_zero]

theorem parseHeader_of_short (bytes : List Byte) (h : bytes.length < 14) : parseHeader bytes = .error .headerShort := by
  unfold parseHeader
  split
  · simp only [List.length_cons] at h
    omega
  · rfl

theorem parseHeader_of_not_magic (bytes : List Byte) (hlong : 14 ≤ bytes.length) (hmagic : bytes.take 4 ≠ magic) :
    parseHeader bytes = .error .badMagic := by
  rw [eq_headerBytes_append bytes hlong] at hmagic ⊢
  exact if_neg hmagic

/-- Ten bytes behind the magic are the fields of a header, whatever their values (R132). -/
theorem parseHeader_magic_append (w3 w2 w1 w0 h3 h2 h1 h0 channels colorspace : Byte) (rest : List Byte) :
    parseHeader (magic ++ [w3, w2, w1, w0, h3, h2, h1, h0, channels, colorspace] ++ rest) =
      .ok (⟨fromBe32 w3 w2 w1 w0, fromBe32 h3 h2 h1 h0, channels, colorspace⟩, rest) := rfl

theorem parseHeader_of_magic (bytes : List Byte) (hlong : 14 ≤ bytes.length) (hmagic : bytes.take 4 = magic) :
    ∃ header, parseHeader bytes = .ok (header, bytes.drop 14) := by
  rw [eq_headerBytes_append bytes hlong] at hmagic ⊢
  exact ⟨_, if_pos hmagic⟩

/-- What is written as a header is read as that header (R131, R132). -/
theorem parseHeader_serializeHeader_append (h : Header) (rest : List Byte) :
    parseHeader (serializeHeader h ++ rest) = .ok (h, rest) := by
  calc parseHeader (serializeHeader h ++ rest) =
        .ok (⟨fromBe32 _ _ _ _, fromBe32 _ _ _ _, h.channels, h.colorspace⟩, rest) :=
        parseHeader_magic_append _ _ _ _ _ _ _ _ _ _ rest
    _ = .ok (h, rest) := by rw [fromBe32_extract, fromBe32_extract]

/-- Settles O49: two checks, and the fields of ten bytes behind the magic. -/
theorem parseHeaderReadsOrFails : Obligations.ParseHeaderReadsOrFails := by
  intro bytes
  refine ⟨parseHeader_of_short bytes, parseHeader_of_not_magic bytes, ?_⟩
  rintro w3 w2 w1 w0 h3 h2 h1 h0 channels colorspace rest rfl
  exact ⟨_, parseHeader_magic_append _ _ _ _ _ _ _ _ _ _ rest, rfl, rfl, fromBe32_toNat w3 w2 w1 w0,
    fromBe32_toNat h3 h2 h1 h0⟩

/-! ### The framing of a file (R134, R137, R138) -/

theorem frameOpen_of_parse_error (file : List Byte) (cause : Cause) (h : parseHeader file = .error cause) :
    frameOpen file = .error cause := by
  rw [frameOpen, h]

/-- A header with no marker behind it, for want of room or of the bytes (R138, D13). -/
theorem frameOpen_of_no_marker (file : List Byte) (hlong : 14 ≤ file.length) (hmagic : file.take 4 = magic)
    (hmarker : file.length < 22 ∨ file.drop (file.length - 8) ≠ endMarker) : frameOpen file = .error .endMarker := by
  obtain ⟨header, hparse⟩ := parseHeader_of_magic file hlong hmagic
  rw [frameOpen, hparse]
  by_cases hshort : file.length < 22
  · exact if_pos hshort
  · exact (if_neg hshort).trans (if_neg (hmarker.resolve_left hshort))

section WrapPayload
variable (header : Header) (payload : List Byte)

@[simp] theorem wrapPayload_length : (wrapPayload header payload).length = 22 + payload.length := by
  simp only [wrapPayload, List.length_append, serializeHeader_length, endMarker_length]
  omega

theorem wrapPayload_eq_append : wrapPayload header payload = serializeHeader header ++ (payload ++ endMarker) :=
  List.append_assoc _ _ _

theorem take_wrapPayload : (wrapPayload header payload).take 14 = serializeHeader header := by
  rw [wrapPayload_eq_append, List.take_left' (serializeHeader_length header)]

theorem drop_wrapPayload : (wrapPayload header payload).drop 14 = payload ++ endMarker := by
  rw [wrapPayload_eq_append, List.drop_left' (serializeHeader_length header)]

/-- The marker is found by its position at the end (R134). -/
theorem drop_wrapPayload_marker :
    (wrapPayload header payload).drop ((wrapPayload header payload).length - 8) = endMarker := by
  refine List.drop_left' ?_
  rw [wrapPayload_length, List.length_append, serializeHeader_length]
  omega

/-- The payload of a framed file, by its position between header and marker (R137 step 6). -/
theorem take_append_endMarker :
    (payload ++ endMarker).take ((wrapPayload header payload).length - 22) = payload := by
  refine List.take_left' ?_
  rw [wrapPayload_length, Nat.add_sub_cancel_left]

theorem frameOpen_wrapPayload : frameOpen (wrapPayload header payload) = .ok (header, payload) := by
  have hparse : parseHeader (wrapPayload header payload) = .ok (header, payload ++ endMarker) := by
    rw [wrapPayload_eq_append, parseHeader_serializeHeader_append]
  have hroom : ¬ (wrapPayload header payload).length < 22 := by
    rw [wrapPayload_length]
    omega
  simp only [frameOpen, hparse]
  rw [if_neg hroom, if_pos (drop_wrapPayload_marker header payload), take_append_endMarker]

end WrapPayload

theorem frameOpen_payload_length_le {file payload : List Byte} {header : Header}
    (h : frameOpen file = .ok (header, payload)) : payload.length ≤ file.length := by
  unfold frameOpen at h
  split at h
  · cases h
  · split at h
    · cases h
    · split at h
      · cases h
        exact (List.length_take_le _ _).trans (Nat.sub_le _ _)
      · cases h

/-! ### `frame_decode` and `frame_encode` (R136, R137, R141) -/

theorem frameDecode_of_open_error (cfg : Config) (file : List Byte) (cause : Cause) (h : frameOpen file = .error cause) :
    frameDecode cfg file = .error cause := by
  rw [frameDecode, h]

/-- Steps 7 to 9 of `frame_decode`, on a file whose framing is right (R137). -/
theorem frameDecode_of_open_ok (cfg : Config) (file payload : List Byte) (header : Header)
    (h : frameOpen file = .ok (header, payload)) :
    frameDecode cfg file = (decPayload cfg payload).bind (frameClose header) := by
  rw [frameDecode, h]
  cases hp : decPayload cfg payload <;> simp only [Except.bind, hp]

theorem frameDecode_wrapPayload (cfg : Config) (header : Header) (payload : List Byte) :
    frameDecode cfg (wrapPayload header payload) = (decPayload cfg payload).bind (frameClose header) :=
  frameDecode_of_open_ok cfg _ payload header (frameOpen_wrapPayload header payload)

/-- Settles O50: the checks of `frameOpen` in their order, then DEC's result and the pixel count. -/
theorem frameDecodeChecksInOrder : Obligations.FrameDecodeChecksInOrder := by
  intro cfg file
  refine ⟨fun hshort => ?_, fun hlong hmagic => ?_, fun hlong hshort hmagic => ?_, fun hlong hmagic hmarker => ?_, ?_⟩
  · exact frameDecode_of_open_error cfg file _ (frameOpen_of_parse_error file _ (parseHeader_of_short file hshort))
  · exact frameDecode_of_open_error cfg file _
      (frameOpen_of_parse_error file _ (parseHeader_of_not_magic file hlong hmagic))
  · exact frameDecode_of_open_error cfg file _ (frameOpen_of_no_marker file hlong hmagic (.inl hshort))
  · exact frameDecode_of_open_error cfg file _ (frameOpen_of_no_marker file (by omega) hmagic (.inr hmarker))
  · rintro header payload rfl
    have hdecode := frameDecode_wrapPayload cfg header payload
    refine ⟨fun cause hp => ?_, fun pixels hp hcount => ?_, fun pixels hp hcount => ?_⟩ <;> rw [hp] at hdecode
    · exact hdecode
    · exact hdecode.trans (if_neg hcount)
    · exact hdecode.trans (if_pos hcount)

theorem frameEncode_eq_some_iff (cfg : Config) (width height : Nat) (channels colorspace : Byte) (pixels : List Pixel)
    (file : List Byte) :
    frameEncode cfg width height channels colorspace pixels = some file ↔
      encodable width height channels pixels = true ∧
        wrapPayload (headerOf width height channels colorspace) (encPayload cfg pixels) = file := by
  simp [frameEncode]

theorem frameEncode_eq_none_iff (cfg : Config) (width height : Nat) (channels colorspace : Byte) (pixels : List Pixel) :
    frameEncode cfg width height channels colorspace pixels = none ↔ encodable width height channels pixels = false := by
  simp [frameEncode]

/-- Settles O51: a file that `frame_encode` gives is a wrapped payload. -/
theorem encodedFileLayout : Obligations.EncodedFileLayout := by
  intro cfg width height channels colorspace pixels file hfile
  obtain ⟨-, rfl⟩ := (frameEncode_eq_some_iff _ _ _ _ _ _ _).mp hfile
  refine ⟨wrapPayload_length _ _, take_wrapPayload _ _, ?_, drop_wrapPayload_marker _ _⟩
  rw [drop_wrapPayload, take_append_endMarker]

end Sys2Proof.Machine
end

section
/-! PROOFS. `frame_decode` asked of the machine (R137): the decoder's pass on a buffer is the loop of `dec_payload`, one
iteration a step, and the container opens the file before it and checks the pixel count after it. -/

namespace Sys2Proof.Machine

/-! ### The decoder's pass on a buffer (R151, R163, R164) -/

/-- The pass is over, with the pixels or with the error that `dec_payload` answers (R31). -/
def Dec.EndsWith (d : Dec) : Except Cause (List Pixel) → Prop
  | .ok pixels => d.status = .doneOk ∧ d.pix = pixels
  | .error cause => d.status = .doneErr cause

theorem Dec.EndsWith.not_running {d : Dec} {result : Except Cause (List Pixel)} (h : d.EndsWith result) :
    d.running = false := by
  cases result with
  | ok pixels => simp [Dec.running, h.1]
  | error cause => simp [Dec.running, show d.status = _ from h]

theorem decLoop_of_truncated (f : DiffFields) (fuel : Nat) (d : Dec) (b : Byte)
    (h : d.fetch f = .error (.truncated b)) : decLoop f (fuel + 1) d = .error .truncated := by
  rw [decLoop, h]

/-- An iteration of an opcode that is all there goes on in the same pass, behind the opcode (R160). -/
theorem Dec.iterate_frame (i : Instr) (d : Dec) (h : d.cur + i.length ≤ d.input.length) :
    (d.iterate i).running = d.running ∧ (d.iterate i).input = d.input ∧ (d.iterate i).cur = d.cur + i.length := by
  obtain ⟨hstatus, hdrive, -, hcur, -, hinput⟩ := applyInstr_frame i d.cachePrev
  rw [Dec.iterate_of_le i d h]
  refine ⟨?_, hinput, congrArg (· + i.length) hcur⟩
  rw [Dec.running, Dec.advance_status, Dec.advance_drive, Dec.outPrev_status, Dec.outPrev_drive, hstatus, hdrive]
  rfl

/-- The machine makes the loop's iterations one a step, and ends the pass with what the loop answers. -/
theorem reaches_decLoop (fuel : Nat) (s : State) (hrun : s.dec.running = true)
    (hfuel : s.dec.input.length - s.dec.cur < fuel) :
    ∃ k d, k ≤ fuel ∧ Reaches k s (s.withDec d) ∧ d.EndsWith (decLoop Config.spec.diffFields fuel s.dec) := by
  induction fuel generalizing s with
  | zero => exact absurd hfuel (Nat.not_lt_zero _)
  | succ fuel ih =>
    have hstep := step_of_dec_running s hrun
    cases hfetch : s.dec.fetch Config.spec.diffFields with
    | ok fetched =>
      obtain ⟨i, rest⟩ := fetched
      have hfits := Dec.cur_add_length_le_of_fetch _ i rest hfetch
      obtain ⟨hrun', hinput, hcur⟩ := Dec.iterate_frame i s.dec hfits
      have hpos := i.length_pos
      rw [Dec.turn_of_fetch _ _ i rest hfetch] at hstep
      rw [decLoop_of_fetch _ _ _ i rest hfetch]
      obtain ⟨k, d, hk, hreach, hend⟩ := ih (s.withDec (s.dec.iterate i)) (hrun'.trans hrun)
        (by rw [State.withDec_dec, hinput, hcur]; omega)
      exact ⟨k + 1, d, Nat.succ_le_succ hk, reaches_succ hstep hreach, hend⟩
    | error reason =>
      rw [Dec.turn, hfetch] at hstep
      refine ⟨1, _, Nat.le_add_left 1 fuel, reaches_succ hstep (reaches_zero _), ?_⟩
      cases reason with
      | endOfInput =>
        rw [decLoop_of_endOfInput _ _ _ hfetch]
        exact ⟨rfl, rfl⟩
      | truncated b =>
        rw [decLoop_of_truncated _ _ _ b hfetch]
        exact rfl

/-- A started pass on a buffer ends with what `dec_payload` answers, after at most one step per byte and one more. -/
theorem reaches_decPayload (s : State) (payload : List Byte) (h : s.dec = Dec.start .buffer payload) :
    ∃ k d, k ≤ payload.length + 1 ∧ Reaches k s (s.withDec d) ∧ d.EndsWith (decPayload Config.spec payload) := by
  rw [decPayload, ← h]
  apply reaches_decLoop
  · rw [h]
    rfl
  · rw [h]
    exact Nat.lt_succ_self _

/-! ### The container around the decoder's pass (R137, R222, R227) -/

/-- The call is over, with the image or with the error that `frame_decode` answers, as the container shows it (log entry
30). -/
def Frame.EndsWith (f : Frame) : Except Cause Image → Prop
  | .ok image => f.status = .doneOk ∧ f.image = some image
  | .error cause => f.status = .doneErr cause ∧ f.image = none

/-- FRAME, in its turn after DEC's pass, is ready again and shows the pass's error, or what steps 8 and 9 answer. -/
theorem frameAfterDec_spec (s : State) (result : Except Cause (List Pixel)) (h : s.dec.EndsWith result) :
    (frameAfterDec s).phase = .ready ∧ (frameAfterDec s).file = s.frame.file ∧
      (frameAfterDec s).EndsWith (result.bind (frameClose s.frame.header)) := by
  cases result with
  | ok pixels =>
    obtain ⟨hstatus, rfl⟩ := h
    rw [frameAfterDec, hstatus]
    simp only [Except.bind]
    cases frameClose s.frame.header s.dec.pix <;> exact ⟨rfl, rfl, rfl, rfl⟩
  | error cause =>
    rw [frameAfterDec, show s.dec.status = .doneErr cause from h]
    exact ⟨rfl, rfl, rfl, rfl⟩

/-- From the moment FRAME waits for the pass it has started to the end of the call. -/
theorem reaches_awaited_dec (s : State) (payload : List Byte) (hdec : s.dec = Dec.start .buffer payload)
    (henc : s.enc.running = false) (hphase : s.frame.phase = .decoding) :
    ∃ k t, k ≤ payload.length + 2 ∧ Reaches k s t ∧ t.HostsTurn ∧ t.inbox = s.inbox ∧ t.enc = s.enc ∧
      t.frame.file = s.frame.file ∧
      t.frame.EndsWith ((decPayload Config.spec payload).bind (frameClose s.frame.header)) := by
  obtain ⟨k, d, hk, hpass, hend⟩ := reaches_decPayload s payload hdec
  obtain ⟨hready, hfile, hresult⟩ := frameAfterDec_spec (s.withDec d) _ hend
  have hlast : step (s.withDec d) = .next ((s.withDec d).withFrame (frameAfterDec (s.withDec d))) :=
    stepWith_of_decoding Config.spec (s.withDec d) hend.not_running henc hphase
  exact ⟨k + 1, _, Nat.succ_le_succ hk, reaches_trans hpass (reaches_succ hlast (reaches_zero _)),
    ⟨hend.not_running, henc, hready⟩, rfl, rfl, hfile, hresult⟩

/-- The first step of the host's call of `frame_decode`: steps 1 to 6 (R137). -/
theorem step_of_frameDecode {s : State} {file : List Byte} {rest : List HostMove} (hturn : s.HostsTurn)
    (hidle : s.dec.status ≠ .busy) (hinbox : s.inbox = .frameDecode file :: rest) :
    step s = .next (beginFrameDecode file { s with inbox := rest }) := by
  rw [step_of_host_move s _ rest hturn hinbox, hostMove, if_neg hidle]
  rfl

theorem beginFrameDecode_of_error (s : State) (file : List Byte) (cause : Cause) (h : frameOpen file = .error cause) :
    beginFrameDecode file s = s.withFrame ((s.frame.setFile file).raise cause) := by
  rw [beginFrameDecode, h]

theorem beginFrameDecode_of_ok (s : State) (file payload : List Byte) (header : Header)
    (h : frameOpen file = .ok (header, payload)) :
    beginFrameDecode file s =
      (s.withDec (Dec.start .buffer payload)).withFrame ((s.frame.setFile file).awaitDec header) := by
  rw [beginFrameDecode, h]

/-- The whole call: its first step, and DEC's pass and FRAME's last check when the framing is right. -/
theorem reaches_frameDecode {s : State} {file : List Byte} {rest : List HostMove} (hturn : s.HostsTurn)
    (hidle : s.dec.status ≠ .busy) (hinbox : s.inbox = .frameDecode file :: rest) :
    ∃ k t, k ≤ file.length + 3 ∧ Reaches k s t ∧ t.HostsTurn ∧ t.inbox = rest ∧ t.enc = s.enc ∧ t.frame.file = file ∧
      t.frame.EndsWith (frameDecode Config.spec file) := by
  have hbegin := step_of_frameDecode hturn hidle hinbox
  obtain ⟨hdec, henc, -⟩ := hturn
  cases hopen : frameOpen file with
  | error cause =>
    rw [beginFrameDecode_of_error _ file cause hopen] at hbegin
    rw [frameDecode_of_open_error _ file cause hopen]
    exact ⟨1, _, Nat.le_add_left 1 _, reaches_succ hbegin (reaches_zero _), ⟨hdec, henc, rfl⟩, rfl, rfl, rfl, rfl, rfl⟩
  | ok opened =>
    obtain ⟨header, payload⟩ := opened
    rw [beginFrameDecode_of_ok _ file payload header hopen] at hbegin
    rw [frameDecode_of_open_ok _ file payload header hopen]
    have hshorter := frameOpen_payload_length_le hopen
    obtain ⟨k, t, hk, hreach, hafter⟩ := reaches_awaited_dec
      ((State.withDec (Dec.start .buffer payload) { s with inbox := rest }).withFrame
        ((s.frame.setFile file).awaitDec header)) payload rfl henc rfl
    exact ⟨k + 1, t, by omega, reaches_succ hbegin hreach, hafter⟩

/-- Settles O53: one step opens the file, DEC's pass and FRAME's last check follow when the framing is right. -/
theorem machineDecodesFiles : Obligations.MachineDecodesFiles := by
  intro s file rest hturn hidle hinbox
  obtain ⟨k, t, hk, hreach, hturn', hinbox', henc, hfile, hend⟩ := reaches_frameDecode hturn hidle hinbox
  refine ⟨k, t, hk, hreach, hturn', hinbox', henc, hfile, ?_⟩
  cases hresult : frameDecode Config.spec file <;> rw [hresult] at hend <;> exact hend

end Sys2Proof.Machine
end

section
/-! PROOFS. `frame_encode` asked of the machine (R136, R141): the encoder's events, one a pixel (R199), write what the
look-ahead form writes (R184), a pass on a buffer is those events one a step, and the container wraps their output. -/

namespace Sys2Proof.Machine

/-! ### The RUNs of a stretch, and the counter that makes them (R25, R186, R199) -/

/-- The opcodes of a stretch of k pixels in closed form: the full RUNs, and one for the rest (R186). -/
theorem runOpcodes_eq (fuel k : Nat) (h : k ≤ fuel) :
    runOpcodes fuel k = List.replicate (k / runMax) (.run runMax) ++ (if k % runMax = 0 then [] else [.run (k % runMax)]) := by
  induction fuel generalizing k with
  | zero =>
    obtain rfl := Nat.le_zero.mp h
    rfl
  | succ fuel ih =>
    rw [runOpcodes]
    by_cases hzero : k = 0
    · rw [if_pos hzero, hzero]
      rfl
    rw [if_neg hzero]
    by_cases hfull : runMax ≤ k
    · have hpos : 0 < runMax := by decide
      rw [Nat.min_eq_right hfull, ih _ (by omega), Nat.div_eq_sub_div hpos hfull, Nat.mod_eq_sub_mod hfull,
        List.replicate_succ]
      rfl
    · have hless : k < runMax := Nat.lt_of_not_le hfull
      rw [Nat.min_eq_left hless.le, Nat.sub_self, ih 0 (Nat.zero_le _), Nat.div_eq_of_lt hless, Nat.mod_eq_of_lt hless,
        if_neg hzero]
      rfl

/-- The events of some pixels, one after the other (R199): a pass without its Start and its Finish. -/
def Enc.events (cfg : Config) (pixels : List Pixel) (e : Enc) : Enc := pixels.foldl (fun e px => e.pixelEvent cfg px) e

@[simp] theorem Enc.events_nil (cfg : Config) (e : Enc) : e.events cfg [] = e := rfl

@[simp] theorem Enc.events_cons (cfg : Config) (px : Pixel) (rest : List Pixel) (e : Enc) :
    e.events cfg (px :: rest) = (e.pixelEvent cfg px).events cfg rest := rfl

theorem Enc.events_append (cfg : Config) (before after : List Pixel) (e : Enc) :
    e.events cfg (before ++ after) = (e.events cfg before).events cfg after := List.foldl_append

/-- What k more pixels equal to the previous one make of an encoder with no run pending (R25, R192, R199): the full RUNs are
written, the counter holds the rest, and the pixel is in its slot if the parameter says so. -/
structure Enc.AfterRun (cfg : Config) (e : Enc) (k : Nat) (d : Enc) : Prop where
  prev : d.prev = e.prev
  run : d.run.toNat = k % runMax
  out : d.out = e.out ++ encodeAll cfg.diffFields (List.replicate (k / runMax) (.run runMax))
  cache : d.cache = if k ≠ 0 ∧ cfg.encRunCacheWrite = true then e.cache.write e.prev else e.cache

theorem Cache.write_write (slots : Cache) (p : Pixel) : (slots.write p).write p = slots.write p :=
  Cache.write_of_read _ _ (Cache.read_write_self slots p)

theorem Enc.runUpdate_frame (cfg : Config) (px : Pixel) (e : Enc) :
    (e.runUpdate cfg px).prev = e.prev ∧ (e.runUpdate cfg px).run = e.run ∧ (e.runUpdate cfg px).out = e.out ∧
      (e.runUpdate cfg px).cache = if cfg.encRunCacheWrite = true then e.cache.write px else e.cache := by
  unfold Enc.runUpdate
  split <;> exact ⟨rfl, rfl, rfl, rfl⟩

theorem Enc.AfterRun.cache_of_ne_zero {cfg : Config} {e d : Enc} {k : Nat} (h : e.AfterRun cfg k d) (hk : k ≠ 0) :
    d.cache = if cfg.encRunCacheWrite = true then e.cache.write e.prev else e.cache := by
  simpa [hk] using h.cache

theorem Enc.AfterRun.extendRun {cfg : Config} {e d : Enc} {k : Nat} (h : e.AfterRun cfg k d) :
    (d.extendRun cfg.diffFields).run.toNat = (k + 1) % runMax ∧
      (d.extendRun cfg.diffFields).out =
        e.out ++ encodeAll cfg.diffFields (List.replicate ((k + 1) / runMax) (.run runMax)) := by
  have hrun := h.run
  simp only [runMax] at hrun ⊢
  by_cases hlimit : d.run.toNat = 61
  · have hfull : (k + 1) / 62 = k / 62 + 1 := by omega
    rw [Enc.extendRun_at_limit _ d (BitVec.eq_of_toNat_eq hlimit), hfull, List.replicate_succ', encodeAll_append]
    refine ⟨?_, ?_⟩
    · rw [Enc.setRun_run, BitVec.toNat_ofNat]
      omega
    · rw [Enc.setRun_out, Enc.emit_out, h.out, List.append_assoc]
      rfl
  · have hsame : (k + 1) / 62 = k / 62 := by omega
    rw [Enc.extendRun_below _ d (by omega), hsame]
    refine ⟨?_, h.out⟩
    rw [Enc.setRun_run, BitVec.toNat_add, BitVec.toNat_ofNat]
    omega

theorem Enc.AfterRun.succ {cfg : Config} {e d : Enc} {k : Nat} (h : e.AfterRun cfg k d) :
    e.AfterRun cfg (k + 1) (d.pixelEvent cfg e.prev) := by
  obtain ⟨hprev, hcache, -⟩ := Enc.extendRun_frame cfg.diffFields d
  obtain ⟨hprev', hrun', hout', hcache'⟩ := Enc.runUpdate_frame cfg e.prev (d.extendRun cfg.diffFields)
  obtain ⟨hrun, hout⟩ := h.extendRun
  rw [Enc.pixelEvent_of_eq cfg e.prev d h.prev.symm]
  refine ⟨hprev'.trans (hprev.trans h.prev), (congrArg BitVec.toNat hrun').trans hrun, hout'.trans hout, ?_⟩
  rw [hcache', hcache, h.cache]
  by_cases hk : k = 0 <;> cases cfg.encRunCacheWrite <;> simp [hk, Cache.write_write]

theorem Enc.afterRun_events (cfg : Config) (e : Enc) (hrun : e.run = 0#6) (k : Nat) :
    e.AfterRun cfg k (e.events cfg (List.replicate k e.prev)) := by
  induction k with
  | zero => exact ⟨rfl, congrArg BitVec.toNat hrun, (List.append_nil _).symm, rfl⟩
  | succ k ih =>
    rw [List.replicate_succ', Enc.events_append]
    exact ih.succ

/-- When the run is over, its RUNs are those of the look-ahead form (R184, R199). -/
theorem Enc.AfterRun.flush_out {cfg : Config} {e d : Enc} {k : Nat} (h : e.AfterRun cfg k d) :
    (d.flush cfg.diffFields).out = e.out ++ encodeAll cfg.diffFields (runOpcodes k k) := by
  rw [runOpcodes_eq k k le_rfl, encodeAll_append, ← List.append_assoc, ← h.out, ← h.run]
  by_cases hzero : d.run = 0#6
  · rw [Enc.flush_of_zero _ _ hzero, hzero]
    exact (List.append_nil _).symm
  · have hne : d.run.toNat ≠ 0 := fun h0 => hzero (BitVec.eq_of_toNat_eq h0)
    rw [Enc.flush_of_ne _ _ hzero, if_neg hne, encodeAll_cons, encodeAll_nil, List.append_nil]
    rfl

/-! ### The pixel-at-a-time form and the look-ahead form (R184, R199) -/

theorem Enc.flush_flush (f : DiffFields) (e : Enc) : (e.flush f).flush f = e.flush f := by
  obtain ⟨-, -, -, -, -, -, hrun⟩ := Enc.flush_frame f e
  exact Enc.flush_of_zero f _ hrun

/-- What ends a run, another pixel or Finish, writes the pending RUN first: writing it earlier makes no difference. -/
theorem Enc.finishEvent_events_flush (cfg : Config) (e : Enc) (pixels : List Pixel) (h : pixels.head? ≠ some e.prev) :
    ((e.flush cfg.diffFields).events cfg pixels).finishEvent cfg = (e.events cfg pixels).finishEvent cfg := by
  cases pixels with
  | nil => rw [Enc.events_nil, Enc.events_nil, Enc.finishEvent, Enc.finishEvent, Enc.flush_flush]
  | cons px rest =>
    obtain ⟨hprev, hcache, -⟩ := Enc.flush_frame cfg.diffFields e
    have hne : px ≠ e.prev := fun heq => h (congrArg some heq)
    rw [Enc.events_cons, Enc.events_cons, Enc.pixelEvent_of_ne cfg px e hne,
      Enc.pixelEvent_of_ne cfg px (e.flush cfg.diffFields) (hprev ▸ hne), Enc.flush_flush, hprev, hcache]

/-- The pixels of the stretch are copies of the previous one (R184). -/
theorem replicate_stretch_append_drop (prev : Pixel) (pixels : List Pixel) :
    List.replicate (stretch prev pixels) prev ++ pixels.drop (stretch prev pixels) = pixels := by
  induction pixels with
  | nil => rfl
  | cons px rest ih =>
    by_cases hpx : px = prev
    · rw [hpx, stretch_cons_same, List.replicate_succ, List.drop_succ_cons, List.cons_append, ih]
    · rw [stretch_cons_of_ne prev px rest hpx]
      rfl

theorem encLoop_cons_prev (cfg : Config) (fuel : Nat) (prev : Pixel) (slots : Cache) (rest : List Pixel) :
    encLoop cfg (fuel + 1) prev slots (prev :: rest) =
      encodeAll cfg.diffFields (runOpcodes (stretch prev (prev :: rest)) (stretch prev (prev :: rest))) ++
        encLoop cfg fuel prev (if cfg.encRunCacheWrite then slots.write prev else slots)
          ((prev :: rest).drop (stretch prev (prev :: rest))) := by
  rw [encLoop, eqPrev, if_pos (beq_self_eq_true prev)]

theorem encLoop_cons_of_ne (cfg : Config) (fuel : Nat) (prev px : Pixel) (slots : Cache) (rest : List Pixel)
    (h : px ≠ prev) :
    encLoop cfg (fuel + 1) prev slots (px :: rest) =
      encode cfg.diffFields (selectOpcode cfg slots prev px) ++ encLoop cfg fuel px (slots.write px) rest := by
  rw [encLoop, eqPrev, if_neg (by simpa using h)]

/-- The events of some pixels, cut behind the stretch at their front, where the pending RUN is written (R184). -/
theorem Enc.finishEvent_events_stretch (cfg : Config) (e : Enc) (hrun : e.run = 0#6) (pixels : List Pixel) :
    (e.events cfg pixels).finishEvent cfg =
      (((e.events cfg (List.replicate (stretch e.prev pixels) e.prev)).flush cfg.diffFields).events cfg
        (pixels.drop (stretch e.prev pixels))).finishEvent cfg := by
  have hprev := (Enc.afterRun_events cfg e hrun (stretch e.prev pixels)).prev
  rw [Enc.finishEvent_events_flush cfg _ _ (by rw [hprev]; exact head?_drop_stretch e.prev pixels), ← Enc.events_append,
    replicate_stretch_append_drop]

theorem Enc.finishEvent_out_of_run_zero (cfg : Config) (e : Enc) (hrun : e.run = 0#6) :
    (e.finishEvent cfg).out = e.out := by
  rw [Enc.finishEvent, Enc.flush_of_zero _ _ hrun, Enc.finish_out]

/-- From an encoder with no run pending, the events of some pixels and Finish write what the loop of R184 writes. -/
theorem Enc.finishEvent_events_out (cfg : Config) (fuel : Nat) (pixels : List Pixel) (hfuel : pixels.length ≤ fuel)
    (e : Enc) (hrun : e.run = 0#6) :
    ((e.events cfg pixels).finishEvent cfg).out = e.out ++ encLoop cfg fuel e.prev e.cache pixels := by
  induction fuel generalizing pixels e with
  | zero =>
    obtain rfl := List.length_eq_zero_iff.mp (Nat.le_zero.mp hfuel)
    rw [Enc.events_nil, Enc.finishEvent_out_of_run_zero cfg e hrun]
    exact (List.append_nil _).symm
  | succ fuel ih =>
    cases pixels with
    | nil =>
      rw [Enc.events_nil, Enc.finishEvent_out_of_run_zero cfg e hrun]
      exact (List.append_nil _).symm
    | cons px rest =>
      by_cases hpx : px = e.prev
      · subst hpx
        have hpos : stretch e.prev (e.prev :: rest) ≠ 0 := by simp [stretch_cons_same]
        have hshorter : ((e.prev :: rest).drop (stretch e.prev (e.prev :: rest))).length ≤ fuel := by
          rw [List.length_drop]
          omega
        have hafter := Enc.afterRun_events cfg e hrun (stretch e.prev (e.prev :: rest))
        obtain ⟨hprev, hcache, -, -, -, -, hflushed⟩ := Enc.flush_frame cfg.diffFields
          (e.events cfg (List.replicate (stretch e.prev (e.prev :: rest)) e.prev))
        rw [Enc.finishEvent_events_stretch cfg e hrun, ih _ hshorter _ hflushed, hafter.flush_out, hprev, hcache,
          hafter.prev, hafter.cache_of_ne_zero hpos, encLoop_cons_prev, List.append_assoc]
      · have hshorter : rest.length ≤ fuel := Nat.le_of_succ_le_succ hfuel
        rw [encLoop_cons_of_ne cfg fuel e.prev px e.cache rest hpx, ← List.append_assoc, Enc.events_cons,
          Enc.pixelEvent_of_ne cfg px e hpx, Enc.flush_of_zero _ _ hrun, ih rest hshorter]
        · rfl
        · exact hrun

/-- The pixel-at-a-time form writes `enc_payload`, from Start to Finish, however the pixels come (R199). -/
theorem Enc.finishEvent_events_start_out (cfg : Config) (drive : Drive) (buffer pixels : List Pixel) :
    (((Enc.start drive buffer).events cfg pixels).finishEvent cfg).out = encPayload cfg pixels :=
  Enc.finishEvent_events_out cfg pixels.length pixels le_rfl (Enc.start drive buffer) rfl

/-! ### The encoder's pass on a buffer (R27, R184, R193) -/

theorem Enc.flush_nextPixel (f : DiffFields) (e : Enc) : e.nextPixel.flush f = (e.flush f).nextPixel := by
  by_cases h : e.run = 0#6
  · rw [Enc.flush_of_zero f e h, Enc.flush_of_zero f e.nextPixel h]
  · rw [Enc.flush_of_ne f e h, Enc.flush_of_ne f e.nextPixel h]
    rfl

theorem Enc.extendRun_nextPixel (f : DiffFields) (e : Enc) : e.nextPixel.extendRun f = (e.extendRun f).nextPixel := by
  rw [Enc.extendRun, Enc.extendRun, Enc.nextPixel_run]
  split <;> rfl

theorem Enc.runUpdate_nextPixel (cfg : Config) (px : Pixel) (e : Enc) :
    e.nextPixel.runUpdate cfg px = (e.runUpdate cfg px).nextPixel := by
  rw [Enc.runUpdate, Enc.runUpdate]
  split <;> rfl

/-- No event reads the position (R199). -/
theorem Enc.pixelEvent_nextPixel (cfg : Config) (px : Pixel) (e : Enc) :
    e.nextPixel.pixelEvent cfg px = (e.pixelEvent cfg px).nextPixel := by
  by_cases h : px = e.prev
  · rw [Enc.pixelEvent_of_eq cfg px e h, Enc.pixelEvent_of_eq cfg px e.nextPixel h, Enc.extendRun_nextPixel,
      Enc.runUpdate_nextPixel]
  · rw [Enc.pixelEvent_of_ne cfg px e h, Enc.pixelEvent_of_ne cfg px e.nextPixel h, Enc.flush_nextPixel]
    rfl

theorem Enc.events_nextPixel (cfg : Config) (pixels : List Pixel) (e : Enc) :
    e.nextPixel.events cfg pixels = (e.events cfg pixels).nextPixel := by
  induction pixels generalizing e with
  | nil => rfl
  | cons px rest ih => rw [Enc.events_cons, Enc.pixelEvent_nextPixel, ih, Enc.events_cons]

theorem Enc.finishEvent_nextPixel_out (cfg : Config) (e : Enc) :
    (e.nextPixel.finishEvent cfg).out = (e.finishEvent cfg).out := by
  simp only [Enc.finishEvent, Enc.finish_out, Enc.flush_out, Enc.nextPixel_out, Enc.nextPixel_run]

/-- The machine takes the pixels that are left of PX one a step, and one step more ends the pass. -/
theorem reaches_events (pixels : List Pixel) (s : State) (hdec : s.dec.running = false) (henc : s.enc.running = true)
    (hleft : s.enc.px.drop s.enc.pos = pixels) :
    ∃ e, Reaches (pixels.length + 1) s (s.withEnc e) ∧ e.status = .doneOk ∧
      e.out = ((s.enc.events Config.spec pixels).finishEvent Config.spec).out := by
  induction pixels generalizing s with
  | nil =>
    have hend : s.enc.px[s.enc.pos]? = none := by rw [← List.head?_drop, hleft, List.head?_nil]
    have hstep := step_of_enc_running s hdec henc
    rw [Enc.turn, hend] at hstep
    exact ⟨_, reaches_succ hstep (reaches_zero _), rfl, rfl⟩
  | cons px rest ih =>
    have hpx : s.enc.px[s.enc.pos]? = some px := by rw [← List.head?_drop, hleft, List.head?_cons]
    have hstep := step_of_encTakes s px ⟨hdec, henc, hpx⟩
    obtain ⟨hinput, hpos, hdrive, hstatus⟩ := Enc.pixelEvent_frame Config.spec px s.enc
    have hrun : (s.enc.pixelEvent Config.spec px).nextPixel.running = true := by
      rwa [Enc.running, Enc.nextPixel_status, Enc.nextPixel_drive, hstatus, hdrive]
    have hrest : (s.enc.pixelEvent Config.spec px).nextPixel.px.drop
        (s.enc.pixelEvent Config.spec px).nextPixel.pos = rest := by
      rw [Enc.nextPixel_px, Enc.nextPixel_pos, hinput, hpos, ← List.drop_drop, hleft, List.drop_one, List.tail_cons]
    obtain ⟨e, hreach, hdone, hout⟩ := ih (s.withEnc (s.enc.pixelEvent Config.spec px).nextPixel) hdec hrun hrest
    refine ⟨e, reaches_succ hstep hreach, hdone, ?_⟩
    rw [hout, State.withEnc_enc, Enc.events_nextPixel, Enc.finishEvent_nextPixel_out, Enc.events_cons]

/-- A started pass on a buffer writes `enc_payload` of its pixels, in one step per pixel and one more. -/
theorem reaches_encPayload (s : State) (pixels : List Pixel) (hdec : s.dec.running = false)
    (henc : s.enc = Enc.start .buffer pixels) :
    ∃ e, Reaches (pixels.length + 1) s (s.withEnc e) ∧ e.status = .doneOk ∧ e.out = encPayload Config.spec pixels := by
  obtain ⟨e, hreach, hdone, hout⟩ := reaches_events pixels s hdec (by rw [henc]; rfl) (by rw [henc]; rfl)
  rw [henc, Enc.finishEvent_events_start_out] at hout
  exact ⟨e, hreach, hdone, hout⟩

/-! ### The container around the encoder's pass (R136, R141) -/

/-- From the moment FRAME waits for the pass it has started to the end of the call. -/
theorem reaches_awaited_enc (s : State) (pixels : List Pixel) (hdec : s.dec.running = false)
    (henc : s.enc = Enc.start .buffer pixels) (hphase : s.frame.phase = .encoding) :
    ∃ t, Reaches (pixels.length + 2) s t ∧ t.HostsTurn ∧ t.inbox = s.inbox ∧ t.dec = s.dec ∧ t.frame.status = .doneOk ∧
      t.frame.file = wrapPayload s.frame.header (encPayload Config.spec pixels) ∧ t.frame.image = none := by
  obtain ⟨e, hpass, hdone, hout⟩ := reaches_encPayload s pixels hdec henc
  have hover : e.running = false := by simp [Enc.running, hdone]
  have hlast : step (s.withEnc e) = .next ((s.withEnc e).withFrame (frameAfterEnc (s.withEnc e))) :=
    stepWith_of_encoding Config.spec (s.withEnc e) hdec hover hphase
  have hframe : frameAfterEnc (s.withEnc e) =
      (s.frame.setFile (wrapPayload s.frame.header (encPayload Config.spec pixels))).deliver none := by
    rw [frameAfterEnc, State.withEnc_enc, hdone, ← hout]
    rfl
  rw [hframe] at hlast
  have hreach := reaches_trans hpass (reaches_succ hlast (reaches_zero _))
  exact ⟨_, hreach, ⟨hdec, hover, rfl⟩, rfl, rfl, rfl, rfl, rfl⟩

/-- The first step of the host's call of `frame_encode`, for a valid image (R136). -/
theorem step_of_frameEncode {s : State} {width height : Nat} {channels colorspace : Byte} {pixels : List Pixel}
    {rest : List HostMove} (hturn : s.HostsTurn) (hidle : s.enc.status ≠ .busy)
    (hinbox : s.inbox = .frameEncode width height channels colorspace pixels :: rest)
    (hvalid : encodable width height channels pixels = true) :
    step s = .next ((State.withEnc (Enc.start .buffer pixels) { s with inbox := rest }).withFrame
      (s.frame.awaitEnc (headerOf width height channels colorspace))) := by
  rw [step_of_host_move s _ rest hturn hinbox, hostMove, if_neg hidle, if_neg (by simp [hvalid]), admits_spec]
  rfl

/-- The call of `frame_encode` for an image that is not valid (R141, D14). -/
theorem step_of_frameEncode_invalid {s : State} {width height : Nat} {channels colorspace : Byte} {pixels : List Pixel}
    {rest : List HostMove} (hturn : s.HostsTurn) (hidle : s.enc.status ≠ .busy)
    (hinbox : s.inbox = .frameEncode width height channels colorspace pixels :: rest)
    (hinvalid : encodable width height channels pixels = false) : step s = .refused .invalidEncodeInput := by
  rw [step_of_host_move s _ rest hturn hinbox, hostMove, if_neg hidle, if_pos hinvalid]

/-- Settles O54: the first step starts the pass that FRAME awaits, or is refused by the check of R141. -/
theorem machineEncodesFiles : Obligations.MachineEncodesFiles := by
  intro s width height channels colorspace pixels rest hturn hidle hinbox
  constructor
  · intro file hfile
    obtain ⟨hvalid, rfl⟩ := (frameEncode_eq_some_iff _ _ _ _ _ _ _).mp hfile
    have hbegin := step_of_frameEncode hturn hidle hinbox hvalid
    obtain ⟨hdec, -, -⟩ := hturn
    obtain ⟨t, hreach, hafter⟩ := reaches_awaited_enc
      ((State.withEnc (Enc.start .buffer pixels) { s with inbox := rest }).withFrame
        (s.frame.awaitEnc (headerOf width height channels colorspace))) pixels hdec rfl rfl
    exact ⟨t, reaches_succ hbegin hreach, hafter⟩
  · intro hnone
    exact step_of_frameEncode_invalid hturn hidle hinbox ((frameEncode_eq_none_iff _ _ _ _ _ _).mp hnone)

end Sys2Proof.Machine
end

section
/-! PROOFS. The decoder's pass, fed from a buffer or byte by byte (R150, R151, R163 to R165): both forms perform the opcodes
that the payload is made of, and stop with the same error at one that is cut off. -/

namespace Sys2Proof.Machine

/-! ### The bytes of one opcode as events (R165) -/

/-- The events of some bytes, one after the other (R165): a pass without its Start and its Finish. -/
def Dec.events (f : DiffFields) (bytes : List Byte) (d : Dec) : Dec := bytes.foldl (fun d b => d.byteEvent f b) d

@[simp] theorem Dec.events_nil (f : DiffFields) (d : Dec) : d.events f [] = d := rfl

@[simp] theorem Dec.events_cons (f : DiffFields) (b : Byte) (bytes : List Byte) (d : Dec) :
    d.events f (b :: bytes) = (d.byteEvent f b).events f bytes := rfl

theorem Dec.events_append (f : DiffFields) (before after : List Byte) (d : Dec) :
    d.events f (before ++ after) = (d.events f before).events f after := List.foldl_append

/-- A tag byte that calls for operands opens the latch behind step 1 (R165). -/
theorem Dec.byteEvent_opens (f : DiffFields) (b : Byte) (d : Dec) (hop : d.op = .tag)
    (hneed : operandCount (classify b) ≠ 0) :
    d.byteEvent f b = d.cachePrev.setOp (.operands b (operandCount (classify b)) []) := by
  rw [Dec.byteEvent, hop]
  exact if_neg hneed

/-- Operand bytes that are still too few are kept in the latch (R165). -/
theorem Dec.events_collect (f : DiffFields) (tagByte : Byte) (need : Nat) (bytes got : List Byte) (d : Dec)
    (hfew : got.length + bytes.length < need) :
    (d.setOp (.operands tagByte need got)).events f bytes = d.setOp (.operands tagByte need (got ++ bytes)) := by
  induction bytes generalizing got with
  | nil => rw [Dec.events_nil, List.append_nil]
  | cons b bytes ih =>
    rw [List.length_cons] at hfew
    have hmore : (got ++ [b]).length < need := by
      rw [List.length_append, List.length_singleton]
      omega
    have hbyte : (d.setOp (.operands tagByte need got)).byteEvent f b =
        d.setOp (.operands tagByte need (got ++ [b])) := if_pos hmore
    rw [Dec.events_cons, hbyte, ih (got ++ [b]) (by rw [List.length_append, List.length_singleton]; omega),
      List.append_assoc, List.singleton_append]

/-- A tag byte and fewer operand bytes than it calls for leave the latch open (R165). -/
theorem Dec.events_of_short (f : DiffFields) (b : Byte) (bytes : List Byte) (d : Dec) (hop : d.op = .tag)
    (hshort : bytes.length < operandCount (classify b)) :
    d.events f (b :: bytes) = d.cachePrev.setOp (.operands b (operandCount (classify b)) bytes) := by
  rw [Dec.events_cons, Dec.byteEvent_opens f b d hop (Nat.ne_zero_of_lt hshort)]
  exact Dec.events_collect f b _ bytes [] d.cachePrev (by simpa using hshort)

/-- No opcode's rule reads the latch (R153 to R158). -/
theorem Dec.outPrev_applyInstr_setOp (op : Phase) (i : Instr) (d : Dec) :
    (applyInstr i (d.setOp op)).outPrev = (applyInstr i d).outPrev.setOp op := by
  cases i <;> rfl

theorem Dec.setOp_setOp (x y : Phase) (d : Dec) : (d.setOp x).setOp y = d.setOp y := rfl

theorem Dec.setOp_of_op (op : Phase) (d : Dec) (h : d.op = op) : d.setOp op = d := by
  rw [← h]
  rfl

/-- Performing an opcode leaves the latch, the status, and the cache of step 1. -/
theorem Dec.perform_frame (d : Dec) (i : Instr) :
    (d.perform i).op = d.op ∧ (d.perform i).status = d.status ∧ (d.perform i).cache = d.cachePrev.cache := by
  obtain ⟨hstatus, -, hcache, -, hop, -⟩ := applyInstr_frame i d.cachePrev
  exact ⟨hop, hstatus, hcache⟩

theorem Dec.completeOpcode_of_assemble (f : DiffFields) (tagByte : Byte) (operands : List Byte) (i : Instr) (d : Dec)
    (h : assemble f tagByte operands = some i) : d.completeOpcode f tagByte operands = (applyInstr i d).outPrev := by
  rw [Dec.completeOpcode, h]

/-- The last operand byte completes the opcode (R165). -/
theorem Dec.byteEvent_completes (f : DiffFields) (tagByte b : Byte) (got : List Byte) (i : Instr) (d : Dec)
    (hassemble : assemble f tagByte (got ++ [b]) = some i) :
    (d.setOp (.operands tagByte (got ++ [b]).length got)).byteEvent f b = (applyInstr i d).outPrev.setOp .tag := by
  have hbyte : (d.setOp (.operands tagByte (got ++ [b]).length got)).byteEvent f b =
      ((d.setOp (.operands tagByte (got ++ [b]).length got)).completeOpcode f tagByte (got ++ [b])).setOp .tag :=
    if_neg (lt_irrefl _)
  rw [hbyte, Dec.completeOpcode_of_assemble f tagByte _ i _ hassemble, Dec.outPrev_applyInstr_setOp, Dec.setOp_setOp]

/-- The bytes of an opcode, as events, perform it (R165). -/
theorem Dec.events_encode (f : DiffFields) (i : Instr) (hwf : i.WellFormed) (d : Dec) (hop : d.op = .tag) :
    d.events f (encode f i) = d.perform i := by
  obtain ⟨tagByte, operands, henc, -, hassemble⟩ := encode_assembles f i hwf
  have hcount := (assemble_isSome f tagByte operands).mp (by rw [hassemble]; rfl)
  rw [henc]
  rcases List.eq_nil_or_concat operands with rfl | ⟨init, last, hsplit⟩
  · have hbyte : d.byteEvent f tagByte = d.cachePrev.completeOpcode f tagByte [] := by
      rw [Dec.byteEvent, hop]
      exact if_pos hcount.symm
    rw [Dec.events_cons, Dec.events_nil, hbyte, Dec.completeOpcode_of_assemble f tagByte [] i _ hassemble]
    rfl
  · rw [List.concat_eq_append] at hsplit
    subst hsplit
    have hshort : init.length < operandCount (classify tagByte) := by
      rw [← hcount, List.length_append, List.length_singleton]
      exact Nat.lt_succ_self _
    rw [← List.cons_append, Dec.events_append, Dec.events_of_short f tagByte init d hop hshort, ← hcount,
      Dec.events_cons, Dec.events_nil, Dec.byteEvent_completes f tagByte last init i d.cachePrev hassemble]
    exact Dec.setOp_of_op .tag (d.perform i) ((d.perform_frame i).1.trans hop)

/-- The bytes of a sequence of opcodes, as events, perform them in order (R93, R165). -/
theorem Dec.events_encodeAll (f : DiffFields) (is : List Instr) (hwf : ∀ i ∈ is, i.WellFormed) (d : Dec)
    (hop : d.op = .tag) : d.events f (encodeAll f is) = is.foldl Dec.perform d := by
  induction is generalizing d with
  | nil => rfl
  | cons i is ih =>
    obtain ⟨hi, his⟩ := List.forall_mem_cons.mp hwf
    rw [encodeAll_cons, Dec.events_append, Dec.events_encode f i hi d hop, List.foldl_cons]
    exact ih his _ ((d.perform_frame i).1.trans hop)

/-! ### The two forms of a pass (R151, R165) -/

/-- Two decoders that differ at most in how they are fed: the registers that an opcode reads and writes are the same. -/
structure Dec.Agrees (d e : Dec) : Prop where
  prev : d.prev = e.prev
  cache : d.cache = e.cache
  pix : d.pix = e.pix

theorem Dec.Agrees.perform {d e : Dec} (h : d.Agrees e) (i : Instr) : (d.perform i).Agrees (e.perform i) := by
  obtain ⟨hprev, hcache, hpix⟩ := h
  cases i <;> constructor <;> simp [Dec.perform, addDeltas, hprev, hcache, hpix]

/-- An iteration whose bytes are all there performs the opcode and moves the cursor. -/
theorem Dec.iterate_eq_perform (i : Instr) (d : Dec) (h : d.cur + i.length ≤ d.input.length) :
    d.iterate i = (d.perform i).advance i.length := Dec.iterate_of_le i d h

theorem Dec.Agrees.advance {d e : Dec} (h : d.Agrees e) (n : Nat) : (d.advance n).Agrees e := ⟨h.prev, h.cache, h.pix⟩

theorem Dec.result_finish (d : Dec) : d.finish.result = .ok d.pix := rfl

theorem Dec.result_raise (cause : Cause) (d : Dec) : (d.raise cause).result = .error cause := rfl

theorem Dec.finishEvent_of_tag (d : Dec) (h : d.op = .tag) : d.finishEvent = d.finish := by rw [Dec.finishEvent, h]

theorem Dec.finishEvent_of_operands (d : Dec) (tagByte : Byte) (need : Nat) (got : List Byte)
    (h : d.op = .operands tagByte need got) : d.finishEvent = d.raise .truncated := by
  rw [Dec.finishEvent, h]

/-- What a decoder finds at its cursor when there is no opcode: no byte, or a tag byte with too few behind it (R162). -/
theorem Dec.drop_of_fetch_error {f : DiffFields} {d : Dec} {reason : DecodeError} (h : d.fetch f = .error reason) :
    (reason = .endOfInput ∧ d.input.drop d.cur = []) ∨
      ∃ b bytes, reason = .truncated b ∧ d.input.drop d.cur = b :: bytes ∧
        bytes.length < operandCount (classify b) := by
  unfold Dec.fetch at h
  cases hbytes : d.input.drop d.cur with
  | nil =>
    rw [hbytes] at h
    exact .inl ⟨(Except.error.inj h).symm, rfl⟩
  | cons b bytes =>
    rw [hbytes] at h
    by_cases hshort : bytes.length < operandCount (classify b)
    · rw [decode_of_short f b bytes hshort] at h
      exact .inr ⟨b, bytes, (Except.error.inj h).symm, rfl, hshort⟩
    · obtain ⟨i, -, -, hok⟩ := (noEncodingIsIllegal f b bytes).1 (Nat.le_of_not_lt hshort)
      rw [hok] at h
      cases h

/-- The loop on the rest of IN answers what the events of those bytes and Finish answer, from decoders that agree. -/
theorem decLoop_eq_events (f : DiffFields) (fuel : Nat) (d e : Dec) (hfuel : d.input.length - d.cur < fuel)
    (hagrees : d.Agrees e) (hop : e.op = .tag) :
    decLoop f fuel d = (e.events f (d.input.drop d.cur)).finishEvent.result := by
  induction fuel generalizing d e with
  | zero => exact absurd hfuel (Nat.not_lt_zero _)
  | succ fuel ih =>
    cases hfetch : d.fetch f with
    | ok fetched =>
      obtain ⟨i, rest⟩ := fetched
      obtain ⟨hwf, hbytes⟩ := eq_encode_append_of_decode f _ rest i hfetch
      have hfits := Dec.cur_add_length_le_of_fetch f i rest hfetch
      obtain ⟨-, hinput, hcur⟩ := Dec.iterate_frame i d hfits
      have hrest : (d.iterate i).input.drop (d.iterate i).cur = rest := by
        rw [hinput, hcur, ← List.drop_drop, hbytes, ← encode_length f i, List.drop_left]
      have hpos := i.length_pos
      have hagrees' : (d.iterate i).Agrees (e.perform i) := by
        rw [Dec.iterate_eq_perform i d hfits]
        exact (hagrees.perform i).advance _
      rw [decLoop_of_fetch f _ _ i rest hfetch, hbytes, Dec.events_append, Dec.events_encode f i hwf e hop,
        ih (d.iterate i) (e.perform i) (by rw [hinput, hcur]; omega) hagrees' ((e.perform_frame i).1.trans hop), hrest]
    | error reason =>
      rcases Dec.drop_of_fetch_error hfetch with ⟨rfl, hbytes⟩ | ⟨b, bytes, rfl, hbytes, hshort⟩
      · rw [decLoop_of_endOfInput f _ _ hfetch, hbytes, Dec.events_nil, Dec.finishEvent_of_tag e hop,
          Dec.result_finish, hagrees.pix]
      · rw [decLoop_of_truncated f _ _ b hfetch, hbytes, Dec.events_of_short f b bytes e hop hshort,
          Dec.finishEvent_of_operands _ _ _ _ rfl, Dec.result_raise]

/-- Settles O26: the two forms begin with the same registers, and do the same with every opcode and at the end. -/
theorem byteAtATimeFormEqualsCursorForm : Obligations.ByteAtATimeFormEqualsCursorForm := by
  intro cfg payload
  exact (decLoop_eq_events cfg.diffFields _ (Dec.start .buffer payload) (Dec.start .stream [])
    (Nat.lt_succ_self _) ⟨rfl, rfl, rfl⟩ rfl).symm

/-! ### A pass of the machine (R150, R163, R235) -/

theorem Dec.EndsWith.result_eq {d : Dec} {result : Except Cause (List Pixel)} (h : d.EndsWith result) :
    d.status ≠ .busy ∧ d.result = result := by
  cases result with
  | ok pixels =>
    obtain ⟨hstatus, rfl⟩ := h
    simp [Dec.result, hstatus]
  | error cause => simp [Dec.result, show d.status = .doneErr cause from h]

/-- Settles O25: the machine makes the iterations of the loop one a step. -/
theorem decoderPassComputesDecPayload : Obligations.DecoderPassComputesDecPayload := by
  intro s payload hstart
  obtain ⟨k, d, hk, hreach, hend⟩ := reaches_decPayload s payload hstart
  obtain ⟨hover, hresult⟩ := hend.result_eq
  exact ⟨k, s.withDec d, hk, hreach, hover, hresult, rfl, rfl, rfl⟩

theorem Dec.listening_iff (d : Dec) : d.listening = true ↔ d.status = .busy ∧ d.drive = .stream := by
  simp [Dec.listening]

theorem Dec.not_running_of_listening (d : Dec) (h : d.listening = true) : d.running = false := by
  obtain ⟨-, hdrive⟩ := d.listening_iff.mp h
  simp [Dec.running, hdrive]

theorem Dec.byteEvent_listening (f : DiffFields) (b : Byte) (d : Dec) :
    (d.byteEvent f b).listening = d.listening := by
  obtain ⟨-, -, hdrive, hstatus⟩ := Dec.byteEvent_frame f b d
  rw [Dec.listening, hdrive, hstatus, Dec.listening]

/-- The state when the host's first moves have been taken and have made the decoder d. -/
def State.afterDecMoves (s : State) (d : Dec) (rest : List HostMove) : State := { s with dec := d, inbox := rest }

/-- The host's Start of the byte-at-a-time form (R165). -/
theorem step_of_openDec {s : State} {rest : List HostMove} (hturn : s.HostsTurn) (hidle : s.dec.status ≠ .busy)
    (hinbox : s.inbox = .openDec :: rest) : step s = .next (s.afterDecMoves (Dec.start .stream []) rest) := by
  rw [step_of_host_move s _ rest hturn hinbox]
  exact if_neg hidle

/-- The host's byte, while a byte-at-a-time pass is open (R165). -/
theorem step_of_byteDec {s : State} {b : Byte} {rest : List HostMove} (hturn : s.HostsTurn)
    (hlistening : s.dec.listening = true) (hinbox : s.inbox = .byteDec b :: rest) :
    step s = .next (s.afterDecMoves (s.dec.byteEvent Config.spec.diffFields b) rest) := by
  rw [step_of_host_move s _ rest hturn hinbox]
  exact if_pos hlistening

/-- The host's Finish, while a byte-at-a-time pass is open (R165). -/
theorem step_of_finishDec {s : State} {rest : List HostMove} (hturn : s.HostsTurn)
    (hlistening : s.dec.listening = true) (hinbox : s.inbox = .finishDec :: rest) :
    step s = .next (s.afterDecMoves s.dec.finishEvent rest) := by
  rw [step_of_host_move s _ rest hturn hinbox]
  exact if_pos hlistening

/-- The machine takes the host's bytes and Finish one a step. -/
theorem reaches_byte_events (bytes : List Byte) (rest : List HostMove) (s : State) (hturn : s.HostsTurn)
    (hlistening : s.dec.listening = true) (hinbox : s.inbox = bytes.map .byteDec ++ .finishDec :: rest) :
    Reaches (bytes.length + 1) s
      (s.afterDecMoves (s.dec.events Config.spec.diffFields bytes).finishEvent rest) := by
  induction bytes generalizing s with
  | nil => exact reaches_succ (step_of_finishDec hturn hlistening hinbox) (reaches_zero _)
  | cons b bytes ih =>
    have hlistening' : (s.dec.byteEvent Config.spec.diffFields b).listening = true :=
      (Dec.byteEvent_listening _ b s.dec).trans hlistening
    have hstep := step_of_byteDec hturn hlistening hinbox
    obtain ⟨-, henc, hready⟩ := hturn
    exact reaches_succ hstep
      (ih (s.afterDecMoves (s.dec.byteEvent Config.spec.diffFields b) (bytes.map .byteDec ++ .finishDec :: rest))
        ⟨Dec.not_running_of_listening _ hlistening', henc, hready⟩ hlistening' rfl)

theorem Dec.finishEvent_not_busy (d : Dec) : d.finishEvent.status ≠ .busy := by
  unfold Dec.finishEvent
  split <;> nofun

/-- Settles O27: the host's moves are Start, events and Finish of `decStream`, one a step. -/
theorem streamedBytesGiveDecPayload : Obligations.StreamedBytesGiveDecPayload := by
  intro s payload rest hturn hidle hinbox
  have hopen := step_of_openDec hturn hidle hinbox
  obtain ⟨-, henc, hready⟩ := hturn
  have hevents := reaches_byte_events payload rest
    (s.afterDecMoves (Dec.start .stream []) (payload.map .byteDec ++ .finishDec :: rest)) ⟨rfl, henc, hready⟩ rfl rfl
  exact ⟨_, reaches_succ hopen hevents, Dec.finishEvent_not_busy _,
    byteAtATimeFormEqualsCursorForm Config.spec payload, rfl, rfl, rfl⟩

/-! ### How many pixels a payload gives (R163) -/

theorem Instr.length_le_five (i : Instr) : i.length ≤ 5 := by
  cases i <;> simp

/-- An opcode that can be encoded appends at least one pixel and at most 62 (R159, R158). -/
theorem Dec.perform_pix_length (d : Dec) (i : Instr) (hwf : i.WellFormed) :
    d.pix.length + 1 ≤ (d.perform i).pix.length ∧ (d.perform i).pix.length ≤ d.pix.length + 62 := by
  cases i with
  | run n =>
    obtain ⟨h1, h62⟩ := hwf
    simp [Dec.perform]
    omega
  | _ => simp [Dec.perform]

/-- The pixels that the loop adds, against the bytes it reads. -/
theorem decLoop_ok_bounds (f : DiffFields) (fuel : Nat) (d : Dec) (pixels : List Pixel)
    (hfuel : d.input.length - d.cur < fuel) (hok : decLoop f fuel d = .ok pixels) :
    (d.input.length - d.cur) + 5 * d.pix.length ≤ 5 * pixels.length ∧
      pixels.length ≤ d.pix.length + 62 * (d.input.length - d.cur) := by
  induction fuel generalizing d with
  | zero => exact absurd hfuel (Nat.not_lt_zero _)
  | succ fuel ih =>
    cases hfetch : d.fetch f with
    | ok fetched =>
      obtain ⟨i, rest⟩ := fetched
      obtain ⟨hwf, -⟩ := eq_encode_append_of_decode f _ rest i hfetch
      have hfits := Dec.cur_add_length_le_of_fetch f i rest hfetch
      obtain ⟨-, hinput, hcur⟩ := Dec.iterate_frame i d hfits
      have hpix : (d.iterate i).pix = (d.perform i).pix := by rw [Dec.iterate_eq_perform i d hfits, Dec.advance_pix]
      obtain ⟨hleast, hmost⟩ := Dec.perform_pix_length d i hwf
      have hpos := i.length_pos
      have hfive := Instr.length_le_five i
      rw [decLoop_of_fetch f _ _ i rest hfetch] at hok
      have hrest := ih (d.iterate i) (by rw [hinput, hcur]; omega) hok
      rw [hinput, hcur, hpix] at hrest
      omega
    | error reason =>
      rcases Dec.drop_of_fetch_error hfetch with ⟨rfl, hbytes⟩ | ⟨b, bytes, rfl, -, -⟩
      · rw [decLoop_of_endOfInput f _ _ hfetch] at hok
        obtain rfl := Except.ok.inj hok
        have hleft : d.input.length - d.cur = 0 := by rw [← List.length_drop, hbytes, List.length_nil]
        omega
      · rw [decLoop_of_truncated f _ _ b hfetch] at hok
        cases hok

/-- Settles O28: from the start state nothing is read and nothing appended yet. -/
theorem payloadPixelCountBounds : Obligations.PayloadPixelCountBounds := by
  intro cfg payload pixels hok
  simpa using decLoop_ok_bounds cfg.diffFields _ (Dec.start .buffer payload) pixels (Nat.lt_succ_self _) hok

end Sys2Proof.Machine
end

section
/-! PROOFS. The round trip (R166, R257, R258): every hit of the encoder's cache is a hit of the decoder's, so the decoder gives
back the pixels; and each cache is the history of the pixels, begun by the decoder with the initial previous pixel. -/

namespace Sys2Proof.Machine

/-! ### The encoder's hits are the decoder's (R257) -/

/-- Every pixel that one cache holds in its slot, the other holds too: what the encoder asks of the decoder's cache, and all
that the two have in common under every value of `ENC_RUN_CACHE_WRITE`. `perform_encOpcodes_pix` ties it to the two agents. -/
def Cache.HitsWithin (slots slots' : Cache) : Prop :=
  ∀ px : Pixel, slots.read (pixelHash px) = px → slots'.read (pixelHash px) = px

theorem hit_iff (slots : Cache) (px : Pixel) : hit slots px = true ↔ slots.read (pixelHash px) = px := beq_iff_eq

/-- Pixels of one hash meet in one slot, so the write of one pixel to both caches keeps the hits of every other. -/
theorem Cache.HitsWithin.write {slots slots' : Cache} (h : slots.HitsWithin slots') (p : Pixel) :
    (slots.write p).HitsWithin (slots'.write p) := by
  intro px hpx
  by_cases hsame : pixelHash px = pixelHash p
  · rw [hsame, Cache.read_write_self] at hpx
    rw [hsame, Cache.read_write_self, hpx]
  · rw [Cache.read_write_other _ _ _ hsame] at hpx ⊢
    exact h px hpx

/-- The encoder's write for a run, if the parameter has it made, is of the pixel that step 1 of the decoder has written (R192,
D9). -/
theorem Cache.HitsWithin.runUpdate {slots : Cache} {d : Dec} (h : slots.HitsWithin d.cachePrev.cache) (cfg : Config) :
    (if cfg.encRunCacheWrite then slots.write d.prev else slots).HitsWithin d.cachePrev.cache := by
  split
  · have hwrite := h.write d.prev
    rwa [Dec.cachePrev_cache, Cache.write_write] at hwrite
  · exact h

/-- The slot of the initial previous pixel (R258). -/
theorem pixelHash_initialPrev : pixelHash initialPrev = 53#6 := by decide

/-- A clear cache holds the zero pixel only, and step 1 of the first iteration leaves the zero pixel's slot (R258). -/
theorem Cache.hitsWithin_clear : Cache.clear.HitsWithin (Cache.clear.write initialPrev) := by
  intro px hpx
  rw [Cache.read_clear] at hpx
  subst hpx
  rw [Cache.read_write_other _ _ _ (by decide), Cache.read_clear]

/-! ### What performing an opcode makes of the decoder -/

/-- The rule of the opcode that the encoder chooses leads from the encoder's previous pixel to the pixel, when the decoder's
cache has the encoder's hits (R187 to R191). -/
theorem applyInstr_selectOpcode (cfg : Config) (slots : Cache) (px : Pixel) (d : Dec) (hhits : slots.HitsWithin d.cache) :
    applyInstr (selectOpcode cfg slots d.prev px) d = d.setPrev px := by
  rcases selectOpcode_cases cfg slots d.prev px with
    ⟨hhit, h⟩ | ⟨-, h⟩ | ⟨ha, -, h⟩ | ⟨ha, -, -, h⟩ | ⟨ha, -, -, h⟩ <;> rw [h]
  · rw [emitIndex, applyInstr_index, hhits px ((hit_iff slots px).mp hhit)]
  · rfl
  · rw [emitDiff, applyInstr_diff, addDeltas_deltas cfg px d.prev ha]
  · rw [emitLuma, applyInstr_luma, add_sub_cancel, add_sub_cancel, addDeltas_deltas cfg px d.prev ha]
  · rw [emitRgb, applyInstr_rgb, ← ha]

/-- Performing the opcode that the encoder chooses for a pixel appends the pixel (R166). -/
theorem Dec.perform_selectOpcode (cfg : Config) (slots : Cache) (px : Pixel) (d : Dec)
    (hhits : slots.HitsWithin d.cachePrev.cache) :
    d.perform (selectOpcode cfg slots d.prev px) = (d.cachePrev.setPrev px).outPrev :=
  congrArg Dec.outPrev (applyInstr_selectOpcode cfg slots px d.cachePrev hhits)

/-- Performing a RUN appends its copies, and leaves the previous pixel and the cache of step 1 (R158). -/
theorem Dec.perform_run (n : Nat) (hn : 1 ≤ n) (d : Dec) :
    d.perform (.run n) = d.cachePrev.outCopies n := by
  obtain ⟨m, rfl⟩ := Nat.exists_eq_add_of_le' hn
  simp [Dec.perform, Dec.outPrev, Dec.outCopies, List.replicate_succ']

/-- Step 1 made twice is step 1 made once. -/
theorem Dec.cachePrev_outCopies_cachePrev (n : Nat) (d : Dec) :
    (d.cachePrev.outCopies n).cachePrev = d.cachePrev.outCopies n :=
  congrArg (fun slots => { d.cachePrev.outCopies n with cache := slots }) (Cache.write_write d.cache d.prev)

theorem Dec.outCopies_zero (d : Dec) : d.outCopies 0 = d :=
  congrArg (fun pix => { d with pix := pix }) (List.append_nil d.pix)

theorem Dec.outCopies_outCopies (m n : Nat) (d : Dec) : (d.outCopies m).outCopies n = d.outCopies (m + n) := by
  simp [Dec.outCopies]

/-- The RUNs of a stretch append its copies (R186). -/
theorem Dec.cachePrev_perform_runOpcodes (fuel k : Nat) (hfuel : k ≤ fuel) (d : Dec) :
    ((runOpcodes fuel k).foldl Dec.perform d).cachePrev = d.cachePrev.outCopies k := by
  induction fuel generalizing k d with
  | zero =>
    obtain rfl := Nat.le_zero.mp hfuel
    exact (Dec.outCopies_zero d.cachePrev).symm
  | succ fuel ih =>
    rw [runOpcodes]
    split
    · next hzero => rw [hzero, List.foldl_nil, Dec.outCopies_zero]
    · next hpos =>
      have hfirst : 1 ≤ min k runMax := Nat.le_min.mpr ⟨Nat.pos_of_ne_zero hpos, by decide⟩
      rw [List.foldl_cons, emitRun, Dec.perform_run _ hfirst, ih _ (by omega), Dec.cachePrev_outCopies_cachePrev,
        Dec.outCopies_outCopies, Nat.add_sub_cancel' (Nat.min_le_left k runMax)]

/-- What the RUNs of a stretch leave of the decoder: its previous pixel, and the cache of its next step 1. -/
theorem Dec.perform_runOpcodes_frame (k : Nat) (d : Dec) :
    ((runOpcodes k k).foldl Dec.perform d).prev = d.prev ∧
      ((runOpcodes k k).foldl Dec.perform d).pix = d.pix ++ List.replicate k d.prev ∧
      ((runOpcodes k k).foldl Dec.perform d).cachePrev.cache = d.cachePrev.cache := by
  have h := Dec.cachePrev_perform_runOpcodes k k le_rfl d
  generalize (runOpcodes k k).foldl Dec.perform d = after at h ⊢
  refine ⟨?_, ?_, ?_⟩
  · rw [← Dec.cachePrev_prev, h, Dec.outCopies_prev, Dec.cachePrev_prev]
  · rw [← Dec.cachePrev_pix, h, Dec.outCopies_pix, Dec.cachePrev_pix, Dec.cachePrev_prev]
  · rw [h, Dec.outCopies_cache]

/-! ### The round trip (R166) -/

/-- Performing the encoder's opcodes appends the encoder's pixels. -/
theorem perform_encOpcodes_pix (cfg : Config) (fuel : Nat) (slots : Cache) (pixels : List Pixel)
    (hfuel : pixels.length ≤ fuel) (d : Dec) (hhits : slots.HitsWithin d.cachePrev.cache) :
    ((encOpcodes cfg fuel d.prev slots pixels).foldl Dec.perform d).pix = d.pix ++ pixels := by
  induction fuel generalizing slots pixels d with
  | zero =>
    obtain rfl := List.length_eq_zero_iff.mp (Nat.le_zero.mp hfuel)
    exact (List.append_nil _).symm
  | succ fuel ih =>
    cases pixels with
    | nil => exact (List.append_nil _).symm
    | cons px rest =>
      rw [encOpcodes]
      split
      · next hpx =>
        subst hpx
        obtain ⟨hprev, hpix, hcache⟩ := Dec.perform_runOpcodes_frame (stretch d.prev (d.prev :: rest)) d
        have hshorter : ((d.prev :: rest).drop (stretch d.prev (d.prev :: rest))).length ≤ fuel := by
          rw [List.length_drop, stretch_cons_same]
          omega
        have hrest := ih _ _ hshorter _ (hcache.symm ▸ hhits.runUpdate cfg)
        rw [hprev] at hrest
        rw [List.foldl_append, hrest, hpix, List.append_assoc, replicate_stretch_append_drop]
      · have hperform := Dec.perform_selectOpcode cfg slots px d hhits
        have hrest := ih (slots.write px) rest (Nat.le_of_succ_le_succ hfuel) ((d.cachePrev.setPrev px).outPrev)
          (hhits.write px)
        rw [List.foldl_cons, hperform, ← List.singleton_append, ← List.append_assoc]
        exact hrest

/-- The payload of some pixels is the bytes of the encoder's opcodes (R184). -/
theorem encPayload_eq_encodeAll (cfg : Config) (pixels : List Pixel) :
    encPayload cfg pixels =
      encodeAll cfg.diffFields (encOpcodes cfg pixels.length initialPrev Cache.clear pixels) :=
  encLoop_eq_encodeAll cfg _ _ _ _

theorem encOpcodes_wellFormed (cfg : Config) (fuel : Nat) (prev : Pixel) (slots : Cache) (pixels : List Pixel) :
    ∀ i ∈ encOpcodes cfg fuel prev slots pixels, i.WellFormed :=
  fun i hi => (encOpcodes_emittable cfg fuel prev slots pixels i hi).wellFormed

/-- From the start of a pass, however it is fed, the encoder's opcodes give the pixels. -/
theorem perform_encOpcodes_start (cfg : Config) (drive : Drive) (pixels : List Pixel) :
    ((encOpcodes cfg pixels.length initialPrev Cache.clear pixels).foldl Dec.perform (Dec.start drive [])).pix = pixels :=
  perform_encOpcodes_pix cfg pixels.length Cache.clear pixels le_rfl (Dec.start drive []) Cache.hitsWithin_clear

/-- Settles O47: the payload decodes by performing the encoder's opcodes, which append its pixels. -/
theorem decodingTheEncodedPixelsGivesThemBack : Obligations.DecodingTheEncodedPixelsGivesThemBack := by
  intro cfg pixels
  rw [encPayload_eq_encodeAll, decPayload_encodeAll cfg _ (encOpcodes_wellFormed cfg _ _ _ _),
    perform_encOpcodes_start]

theorem encodable_iff (width height : Nat) (channels : Byte) (pixels : List Pixel) :
    encodable width height channels pixels = true ↔
      (width < 2 ^ 32 ∧ height < 2 ^ 32 ∧ pixels.length = width * height) ∧ (channels = 3#8 ∨ channels = 4#8) := by
  simp [encodable, and_assoc]

/-- Settles O52: the payload comes back by O47, and the dimensions fit the header's fields. -/
theorem decodingAnEncodedFileGivesTheImage : Obligations.DecodingAnEncodedFileGivesTheImage := by
  intro cfg width height channels colorspace pixels file hfile
  obtain ⟨hvalid, rfl⟩ := (frameEncode_eq_some_iff _ _ _ _ _ _ _).mp hfile
  obtain ⟨⟨hw, hh, hcount⟩, -⟩ := (encodable_iff _ _ _ _).mp hvalid
  have hwidth : (headerOf width height channels colorspace).width.toNat = width := Nat.mod_eq_of_lt hw
  have hheight : (headerOf width height channels colorspace).height.toNat = height := Nat.mod_eq_of_lt hh
  refine ⟨⟨headerOf width height channels colorspace, pixels⟩, ?_, rfl, hwidth, hheight, rfl, rfl⟩
  rw [frameDecode_wrapPayload, decodingTheEncodedPixelsGivesThemBack cfg pixels]
  exact if_pos (by rw [hcount, hwidth, hheight])

/-! ### The two caches as histories (R257, R258) -/

/-- The cache after the writes of some pixels, one after the other (R257). -/
def Cache.history (slots : Cache) (pixels : List Pixel) : Cache := pixels.foldl Cache.write slots

theorem Cache.history_append (slots : Cache) (before after : List Pixel) :
    slots.history (before ++ after) = (slots.history before).history after := List.foldl_append

/-- Writing a pixel again and again is writing it once. -/
theorem Cache.history_replicate (slots : Cache) (p : Pixel) (n : Nat) (hn : n ≠ 0) :
    slots.history (List.replicate n p) = slots.write p := by
  obtain ⟨m, rfl⟩ := Nat.exists_eq_succ_of_ne_zero hn
  induction m generalizing slots with
  | zero => rfl
  | succ m ih =>
    have hrest := ih (slots.write p) (Nat.succ_ne_zero m)
    rwa [Cache.write_write] at hrest

/-- A slot to which none of the pixels goes stays. -/
theorem Cache.read_history_of_forall_ne (slots : Cache) (pixels : List Pixel) (idx : BitVec 6)
    (h : ∀ px ∈ pixels, pixelHash px ≠ idx) : (slots.history pixels).read idx = slots.read idx := by
  induction pixels generalizing slots with
  | nil => rfl
  | cons px rest ih =>
    obtain ⟨hpx, hrest⟩ := List.forall_mem_cons.mp h
    exact (ih (slots.write px) hrest).trans (Cache.read_write_other _ _ _ hpx.symm)

/-- A slot to which some of the pixels goes holds the last of these, whatever it held before. -/
theorem Cache.read_history_of_exists (slots slots' : Cache) (pixels : List Pixel) (idx : BitVec 6)
    (h : ∃ px ∈ pixels, pixelHash px = idx) : (slots.history pixels).read idx = (slots'.history pixels).read idx := by
  induction pixels generalizing slots slots' with
  | nil => simp at h
  | cons px rest ih =>
    by_cases hrest : ∃ q ∈ rest, pixelHash q = idx
    · exact ih (slots.write px) (slots'.write px) hrest
    · have hpx : pixelHash px = idx := by simpa [hrest] using h
      have hne : ∀ q ∈ rest, pixelHash q ≠ idx := fun q hq heq => hrest ⟨q, hq, heq⟩
      calc ((slots.write px).history rest).read idx
          = (slots.write px).read idx := Cache.read_history_of_forall_ne _ _ _ hne
        _ = (slots'.write px).read idx := by rw [← hpx, Cache.read_write_self, Cache.read_write_self]
        _ = ((slots'.write px).history rest).read idx := (Cache.read_history_of_forall_ne _ _ _ hne).symm

/-- What the decoder keeps from its Start on: its previous pixel is the last of PIX, and its cache, at the next step 1, is
the history of the initial previous pixel and PIX (R257). -/
structure Dec.IsHistory (d : Dec) : Prop where
  prev : d.prev = d.pix.getLastD initialPrev
  cache : d.cachePrev.cache = (Cache.clear.write initialPrev).history d.pix

theorem Dec.isHistory_start (drive : Drive) (payload : List Byte) : (Dec.start drive payload).IsHistory := ⟨rfl, rfl⟩

/-- What every opcode appends: some copies of the pixel it makes the previous one. -/
theorem Dec.exists_perform_pix (d : Dec) (i : Instr) :
    ∃ n, n ≠ 0 ∧ (d.perform i).pix = d.pix ++ List.replicate n (d.perform i).prev := by
  cases i with
  | run n => exact ⟨n - 1 + 1, Nat.succ_ne_zero _, by simp [Dec.perform, List.replicate_succ']⟩
  | _ => exact ⟨1, Nat.one_ne_zero, rfl⟩

theorem Dec.IsHistory.perform {d : Dec} (h : d.IsHistory) (i : Instr) : (d.perform i).IsHistory := by
  obtain ⟨n, hn, hpix⟩ := d.exists_perform_pix i
  obtain ⟨-, -, hcache⟩ := d.perform_frame i
  constructor
  · obtain ⟨m, rfl⟩ := Nat.exists_eq_succ_of_ne_zero hn
    rw [hpix, List.replicate_succ', ← List.append_assoc, List.getLastD_concat]
  · rw [hpix, Cache.history_append, ← h.cache, Cache.history_replicate _ _ _ hn, Dec.cachePrev_cache, hcache]

theorem Dec.IsHistory.foldl_perform {d : Dec} (h : d.IsHistory) (is : List Instr) : (is.foldl Dec.perform d).IsHistory := by
  induction is generalizing d with
  | nil => exact h
  | cons i is ih => exact ih (h.perform i)

/-- Whichever way a pixel goes, it becomes the previous one and, in the spec's own build, is written to its slot (R192,
D9). -/
theorem Enc.pixelEvent_spec_prev_cache (px : Pixel) (e : Enc) :
    (e.pixelEvent Config.spec px).prev = px ∧ (e.pixelEvent Config.spec px).cache = e.cache.write px := by
  by_cases h : px = e.prev
  · obtain ⟨hprev, hcache, -⟩ := Enc.extendRun_frame Config.spec.diffFields e
    rw [Enc.pixelEvent_of_eq Config.spec px e h, Enc.runUpdate_spec, Enc.cacheWrite_prev, Enc.cacheWrite_cache, hprev,
      hcache]
    exact ⟨h.symm, rfl⟩
  · obtain ⟨-, hcache, -⟩ := Enc.flush_frame Config.spec.diffFields e
    rw [Enc.pixelEvent_of_ne Config.spec px e h]
    exact ⟨rfl, congrArg (Cache.write · px) hcache⟩

/-- The encoder's previous pixel is the last one, and its cache the history of the pixels, in the spec's own build
(R257). -/
theorem Enc.events_spec_prev_cache (pixels : List Pixel) (e : Enc) :
    (e.events Config.spec pixels).prev = pixels.getLastD e.prev ∧
      (e.events Config.spec pixels).cache = e.cache.history pixels := by
  induction pixels generalizing e with
  | nil => exact ⟨rfl, rfl⟩
  | cons px rest ih =>
    obtain ⟨hprev, hcache⟩ := Enc.pixelEvent_spec_prev_cache px e
    obtain ⟨hprev', hcache'⟩ := ih (e.pixelEvent Config.spec px)
    rw [hprev] at hprev'
    rw [hcache] at hcache'
    exact ⟨hprev'.trans (List.getLastD_cons ..).symm, hcache'⟩

/-- The bytes of the encoder's payload, as events, perform the encoder's opcodes. -/
theorem events_encPayload (cfg : Config) (drive : Drive) (pixels : List Pixel) :
    (Dec.start drive []).events cfg.diffFields (encPayload cfg pixels) =
      (encOpcodes cfg pixels.length initialPrev Cache.clear pixels).foldl Dec.perform (Dec.start drive []) := by
  rw [encPayload_eq_encodeAll, Dec.events_encodeAll _ _ (encOpcodes_wellFormed cfg _ _ _ _) _ rfl]

theorem foldl_perform_op (is : List Instr) (d : Dec) : (is.foldl Dec.perform d).op = d.op := by
  induction is generalizing d with
  | nil => rfl
  | cons i is ih => exact (ih (d.perform i)).trans (d.perform_frame i).1

/-- Settles O46: both caches are histories of the pixels, the decoder's begun with the initial previous pixel in slot 53. -/
theorem cachesAgreeExceptSlot53 : Obligations.CachesAgreeExceptSlot53 := by
  intro pixels e d he hd
  obtain ⟨heprev, hecache⟩ := Enc.events_spec_prev_cache pixels (Enc.start .stream [])
  replace hd := hd.trans (events_encPayload Config.spec .stream pixels)
  have hop : d.op = .tag := by rw [hd, foldl_perform_op, Dec.start_op]
  have hpix : d.pix = pixels := by rw [hd, perform_encOpcodes_start]
  have hhistory : d.IsHistory := by
    rw [hd]
    exact (Dec.isHistory_start .stream []).foldl_perform _
  obtain ⟨hdprev, hdcache⟩ := hhistory
  replace hecache : e.cache = Cache.clear.history pixels := he ▸ hecache
  have heprev' : e.prev = pixels.getLastD initialPrev := he ▸ heprev
  rw [hpix] at hdprev hdcache
  rw [hdcache, hecache]
  refine ⟨hop, hpix, hdprev.trans heprev'.symm, fun idx hidx => ?_, fun hsome => ?_, fun hnone => ?_⟩
  · by_cases hsome : ∃ px ∈ pixels, pixelHash px = idx
    · exact Cache.read_history_of_exists _ _ pixels idx hsome
    · have hne : ∀ px ∈ pixels, pixelHash px ≠ idx := fun px hpx heq => hsome ⟨px, hpx, heq⟩
      rw [Cache.read_history_of_forall_ne _ _ _ hne, Cache.read_history_of_forall_ne _ _ _ hne,
        Cache.read_write_other _ _ _ (by rwa [pixelHash_initialPrev])]
  · exact Cache.read_history_of_exists _ _ pixels 53#6 hsome
  · rw [Cache.read_history_of_forall_ne _ _ _ hnone, Cache.read_history_of_forall_ne _ _ _ hnone,
      ← pixelHash_initialPrev, Cache.read_write_self, Cache.read_clear]
    exact ⟨rfl, rfl⟩

end Sys2Proof.Machine
end

section
/-! PROOFS. One iteration of the decoder, opcode by opcode (R152 to R163): what all complete iterations have in common, what
the rule of each opcode adds, and the two ways in which a turn finds no opcode. -/

namespace Sys2Proof.Machine

/-! ### What the iterations have in common (R151, R152, R159, R160, R162) -/

/-- An opcode that is all there: step 1, the cursor behind the opcode, the previous pixel and the pixels that its rule makes
with the new previous pixel appended, and nothing else. -/
theorem exec_of_complete (i : Instr) (s : State) (h : i.length = 1 ∨ s.dec.cur + i.length ≤ s.dec.input.length) :
    ∃ t, exec i s = .next t ∧ s.SameAround t ∧ s.dec.CachedPrev t.dec.cache ∧ t.dec.cur = s.dec.cur + i.length ∧
      t.dec.prev = (applyInstr i s.dec.cachePrev).prev ∧
      t.dec.pix = (applyInstr i s.dec.cachePrev).pix ++ [(applyInstr i s.dec.cachePrev).prev] := by
  obtain ⟨hstatus, hdrive, hcache, hcur, hop, hinput⟩ := applyInstr_frame i s.dec.cachePrev
  refine ⟨_, exec_eq_iterate i s, ?_⟩
  rw [Dec.iterate_of_complete i s.dec h]
  refine ⟨⟨rfl, rfl, rfl, hinput, hdrive, hop, hstatus⟩, fun idx => ?_, congrArg (· + i.length) hcur, rfl, rfl⟩
  rw [State.withDec_dec, Dec.advance_cache, Dec.outPrev_cache, hcache, Dec.cachePrev_cache, Cache.read_write]

/-- In DEC's turn the bytes of a well-formed opcode at the cursor run it (R26, R151). -/
theorem step_of_encoded (i : Instr) (s : State) (rest : List Byte) (hwf : i.WellFormed) (hrun : s.dec.running = true)
    (hbytes : s.dec.input.drop s.dec.cur = encode .rgb i ++ rest) : step s = exec i s := by
  refine stepRunsTheDecodedOpcode s i rest hrun ?_
  rw [hbytes, decode_encode_append .rgb i rest hwf]

/-- An opcode of several bytes that IN has not got in full (R162). -/
theorem exec_of_cut (i : Instr) (s : State) (hlong : 1 < i.length) (hcut : s.dec.input.length < s.dec.cur + i.length) :
    ∃ t, exec i s = .next t ∧ s.TruncatedFrom t :=
  (cursorAdvancesByOpcodeLength i s).2 hlong hcut

theorem exec_status_of_cut (i : Instr) (s : State) (hlong : 1 < i.length)
    (hcut : s.dec.input.length < s.dec.cur + i.length) :
    ∃ t, exec i s = .next t ∧ t.dec.status = .doneErr .truncated := by
  obtain ⟨t, hexec, hstatus, -⟩ := exec_of_cut i s hlong hcut
  exact ⟨t, hexec, hstatus⟩

/-! ### The six opcodes (R153 to R158) -/

/-- Settles O10: the rule of RGBA puts the four channels in the place of the previous pixel. -/
theorem rgbaReplacesAllChannels : Obligations.RgbaReplacesAllChannels := by
  intro r g b a s
  refine ⟨fun hfits => exec_of_complete (.rgba r g b a) s (.inr hfits),
    exec_status_of_cut (.rgba r g b a) s (by simp),
    fun rest hrun hbytes => step_of_encoded (.rgba r g b a) s rest trivial hrun hbytes⟩

/-- Settles O11: the rule of RGB takes the alpha of the previous pixel, which step 1 leaves. -/
theorem rgbKeepsAlpha : Obligations.RgbKeepsAlpha := by
  intro r g b s
  refine ⟨fun hfits => exec_of_complete (.rgb r g b) s (.inr hfits), exec_status_of_cut (.rgb r g b) s (by simp),
    fun rest hrun hbytes => step_of_encoded (.rgb r g b) s rest trivial hrun hbytes⟩

/-- A payload of one INDEX byte decodes to the pixel that step 1 of the first iteration leaves in the slot (R155). -/
theorem decPayload_index (cfg : Config) (idx : BitVec 6) :
    decPayload cfg [idx.setWidth 8] = .ok [(Cache.clear.write initialPrev).read idx] :=
  decPayload_encodeAll cfg [.index idx] (List.forall_mem_singleton.mpr trivial)

/-- The byte of an INDEX has the index as its value (R84). -/
theorem indexByte_of_toNat (b : Byte) (idx : BitVec 6) (h : b.toNat = idx.toNat) : b = idx.setWidth 8 := by
  apply BitVec.eq_of_toNat_eq
  rw [h, BitVec.toNat_setWidth_of_le (by decide)]

/-- Settles O12: the rule of INDEX reads the cache of step 1. -/
theorem indexRecallsTheSlot : Obligations.IndexRecallsTheSlot := by
  refine ⟨fun idx s => ⟨?_, fun b rest hrun hbytes hb => ?_⟩, decPayload_index Config.spec 0#6,
    decPayload_index Config.spec 53#6⟩
  · obtain ⟨t, hexec, haround, hcached, hcur, hprev, hpix⟩ := exec_of_complete (.index idx) s (.inl rfl)
    rw [applyInstr_index, Dec.setPrev_prev] at hprev hpix
    refine ⟨t, hexec, haround, hcached, hcur, ?_, ?_⟩
    · rw [hprev, Dec.cachePrev_cache, Cache.read_write]
    · rw [hpix, hprev, Dec.setPrev_pix, Dec.cachePrev_pix]
  · rw [indexByte_of_toNat b idx hb] at hbytes
    exact step_of_encoded (.index idx) s rest trivial hrun hbytes

/-- Settles O13: each channel is the sum with its delta modulo 256. -/
theorem diffAddsDeltasModulo256 : Obligations.DiffAddsDeltasModulo256 := by
  intro dr dg db s
  obtain ⟨t, hexec, haround, hcached, hcur, hprev, hpix⟩ := exec_of_complete (.diff dr dg db) s (.inl rfl)
  rw [applyInstr_diff, Dec.setPrev_prev, Dec.cachePrev_prev] at hprev hpix
  refine ⟨t, hexec, haround, hcached, hcur, ?_⟩
  rw [hpix, hprev]
  exact ⟨addDelta_toNat _ _, addDelta_toNat _ _, addDelta_toNat _ _, rfl, rfl⟩

/-- Settles O14: each channel is the sum with its delta modulo 256, those of red and blue by way of green's. -/
theorem lumaAddsDeltasModulo256 : Obligations.LumaAddsDeltasModulo256 := by
  intro dg drg dbg s
  refine ⟨fun hfits => ?_, exec_of_cut (.luma dg drg dbg) s Nat.one_lt_two⟩
  obtain ⟨t, hexec, haround, hcached, hcur, hprev, hpix⟩ := exec_of_complete (.luma dg drg dbg) s (.inr hfits)
  rw [applyInstr_luma, Dec.setPrev_prev, Dec.cachePrev_prev] at hprev hpix
  refine ⟨t, hexec, haround, hcached, hcur, ?_⟩
  rw [hpix, hprev]
  exact ⟨addDelta_toNat _ _, addDelta_toNat _ _, addDelta_toNat _ _, rfl, rfl⟩

theorem runByte_toNat (len : BitVec 6) : (runByte len).toNat = 0xC0 + len.toNat := by
  revert len; decide

/-- The byte of a RUN has the length less one above the tag (R87). -/
theorem runByte_of_toNat (b : Byte) (n : Nat) (h : b.toNat = 0xC0 + (n - 1)) :
    b = runByte (BitVec.ofNat 6 (n - 1)) := by
  apply BitVec.eq_of_toNat_eq
  rw [runByte_toNat, BitVec.toNat_ofNat, h]
  omega

/-- Settles O15: the rule of RUN appends n - 1 copies, and step 3 the last. -/
theorem runRepeatsThePreviousPixel : Obligations.RunRepeatsThePreviousPixel := by
  intro n s hwf
  refine ⟨?_, fun b rest hrun hbytes hb => ?_⟩
  · obtain ⟨t, hexec, haround, hcached, hcur, hprev, hpix⟩ := exec_of_complete (.run n) s (.inl rfl)
    refine ⟨t, hexec, haround, hcached, hcur, hprev, ?_⟩
    obtain ⟨m, rfl⟩ := Nat.exists_eq_add_of_le' hwf.1
    rw [hpix, applyInstr_run, Dec.outCopies_pix, Dec.outCopies_prev, Dec.cachePrev_pix, Dec.cachePrev_prev,
      Nat.add_sub_cancel, List.append_assoc, ← List.replicate_succ']
  · rw [runByte_of_toNat b n hb] at hbytes
    exact step_of_encoded (.run n) s rest hwf hrun hbytes

/-- Settles O24: the slot of the byte is not the one that step 1 of the first iteration has written. -/
theorem singleIndexByteDecodesToZeroPixel : Obligations.SingleIndexByteDecodesToZeroPixel := by
  intro b hb hne
  obtain ⟨-, -, hindex, -, -, -⟩ := tagByte_of_class b
  have hbyte := hindex ((classify_eq_index_iff b).mpr hb)
  have hslot : b.extractLsb' 0 6 ≠ pixelHash initialPrev := by
    rw [pixelHash_initialPrev]
    intro h53
    rw [h53] at hbyte
    exact hne hbyte
  rw [hbyte, decPayload_index, Cache.read_write_other _ _ _ hslot, Cache.read_clear]
  rfl

/-! ### A turn that finds no opcode (R162, R163) -/

/-- Settles O17: nothing is left to decode behind the cursor. -/
theorem decoderPassEndsAtEndOfInput : Obligations.DecoderPassEndsAtEndOfInput := by
  intro s hrun hcur
  have hfetch : s.dec.fetch Config.spec.diffFields = .error .endOfInput := by
    rw [Dec.fetch, hcur, List.drop_length, decode_nil]
  have hstep := step_of_dec_running s hrun
  rw [Dec.turn, hfetch] at hstep
  exact ⟨_, hstep, rfl, rfl, rfl, rfl, rfl, rfl, rfl, rfl, rfl, rfl, rfl⟩

/-- Settles O18: the tag byte at the cursor has too few bytes behind it. -/
theorem truncatedOpcodeEndsThePass : Obligations.TruncatedOpcodeEndsThePass := by
  intro s b hrun hbyte hcut
  obtain ⟨hlt, hget⟩ := List.getElem?_eq_some_iff.mp hbyte
  have hshort : (s.dec.input.drop (s.dec.cur + 1)).length < operandCount (classify b) := by
    rw [List.length_drop]
    rw [opcodeLength] at hcut
    omega
  have hfetch : s.dec.fetch Config.spec.diffFields = .error (.truncated b) := by
    rw [Dec.fetch, List.drop_eq_getElem_cons hlt, hget, decode_of_short _ b _ hshort]
  have hstep := step_of_dec_running s hrun
  rw [Dec.turn, hfetch] at hstep
  exact ⟨_, hstep, truncatedFrom_truncate s⟩

end Sys2Proof.Machine
end

section
/-! PROOFS. The encoder (R180 to R199): its two forms write the same bytes, the machine runs either of them one pixel a step,
what a step emits for a pixel that differs from the previous one, and what a stretch and a payload cost. -/

namespace Sys2Proof.Machine

/-! ### A whole pass (R180, R184, R193, R199) -/

/-- Settles O40: the events from Start to Finish write what the loop of R184 writes. -/
theorem pixelAtATimeFormEqualsLookAheadForm : Obligations.PixelAtATimeFormEqualsLookAheadForm :=
  fun cfg pixels => Enc.finishEvent_events_start_out cfg .stream [] pixels

/-- Settles O41: the machine takes the pixels of PX one a step, and one step more ends the pass. -/
theorem encoderPassComputesEncPayload : Obligations.EncoderPassComputesEncPayload := by
  intro s pixels hdec hstart
  obtain ⟨e, hreach, hdone, hout⟩ := reaches_encPayload s pixels hdec hstart
  exact ⟨s.withEnc e, hreach, hdone, hout, rfl, rfl, rfl⟩

theorem Enc.listening_iff (e : Enc) : e.listening = true ↔ e.status = .busy ∧ e.drive = .stream := by
  simp [Enc.listening]

theorem Enc.not_running_of_listening (e : Enc) (h : e.listening = true) : e.running = false := by
  obtain ⟨-, hdrive⟩ := e.listening_iff.mp h
  simp [Enc.running, hdrive]

theorem Enc.pixelEvent_listening (cfg : Config) (px : Pixel) (e : Enc) :
    (e.pixelEvent cfg px).listening = e.listening := by
  obtain ⟨-, -, hdrive, hstatus⟩ := Enc.pixelEvent_frame cfg px e
  rw [Enc.listening, hdrive, hstatus, Enc.listening]

/-- The state when the host's first moves have been taken and have made the encoder e. -/
def State.afterEncMoves (s : State) (e : Enc) (rest : List HostMove) : State := { s with enc := e, inbox := rest }

/-- The host's Start of the pixel-at-a-time form (R199). -/
theorem step_of_openEnc {s : State} {rest : List HostMove} (hturn : s.HostsTurn) (hidle : s.enc.status ≠ .busy)
    (hinbox : s.inbox = .openEnc :: rest) : step s = .next (s.afterEncMoves (Enc.start .stream []) rest) := by
  rw [step_of_host_move s _ rest hturn hinbox]
  exact if_neg hidle

/-- The host's pixel, while a pixel-at-a-time pass is open (R199). -/
theorem step_of_pixelEnc {s : State} {px : Pixel} {rest : List HostMove} (hturn : s.HostsTurn)
    (hlistening : s.enc.listening = true) (hinbox : s.inbox = .pixelEnc px :: rest) :
    step s = .next (s.afterEncMoves (s.enc.pixelEvent Config.spec px) rest) := by
  rw [step_of_host_move s _ rest hturn hinbox]
  exact if_pos hlistening

/-- The host's Finish, while a pixel-at-a-time pass is open (R199). -/
theorem step_of_finishEnc {s : State} {rest : List HostMove} (hturn : s.HostsTurn)
    (hlistening : s.enc.listening = true) (hinbox : s.inbox = .finishEnc :: rest) :
    step s = .next (s.afterEncMoves (s.enc.finishEvent Config.spec) rest) := by
  rw [step_of_host_move s _ rest hturn hinbox]
  exact if_pos hlistening

/-- The machine takes the host's pixels and Finish one a step. -/
theorem reaches_pixel_events (pixels : List Pixel) (rest : List HostMove) (s : State) (hturn : s.HostsTurn)
    (hlistening : s.enc.listening = true) (hinbox : s.inbox = pixels.map .pixelEnc ++ .finishEnc :: rest) :
    Reaches (pixels.length + 1) s
      (s.afterEncMoves ((s.enc.events Config.spec pixels).finishEvent Config.spec) rest) := by
  induction pixels generalizing s with
  | nil => exact reaches_succ (step_of_finishEnc hturn hlistening hinbox) (reaches_zero _)
  | cons px pixels ih =>
    have hlistening' : (s.enc.pixelEvent Config.spec px).listening = true :=
      (Enc.pixelEvent_listening _ px s.enc).trans hlistening
    have hstep := step_of_pixelEnc hturn hlistening hinbox
    obtain ⟨hdec, -, hready⟩ := hturn
    exact reaches_succ hstep
      (ih (s.afterEncMoves (s.enc.pixelEvent Config.spec px) (pixels.map .pixelEnc ++ .finishEnc :: rest))
        ⟨hdec, Enc.not_running_of_listening _ hlistening', hready⟩ hlistening' rfl)

/-- Settles O42: the host's moves are Start, events and Finish of `encStream`, one a step. -/
theorem streamedPixelsGiveEncPayload : Obligations.StreamedPixelsGiveEncPayload := by
  intro s pixels rest hturn hidle hinbox
  have hopen := step_of_openEnc hturn hidle hinbox
  obtain ⟨hdec, -, hready⟩ := hturn
  have hevents := reaches_pixel_events pixels rest
    (s.afterEncMoves (Enc.start .stream []) (pixels.map .pixelEnc ++ .finishEnc :: rest)) ⟨hdec, rfl, hready⟩ rfl rfl
  exact ⟨_, reaches_succ hopen hevents, rfl, pixelAtATimeFormEqualsLookAheadForm Config.spec pixels, rfl, rfl, rfl⟩

/-- Settles O37: no pixel is left at the position, so the turn is Finish, whose flush leaves all but the counter. -/
theorem encoderFlushesRunAtEndOfInput : Obligations.EncoderFlushesRunAtEndOfInput := by
  intro s hdec henc hend
  have hstep := step_of_enc_running s hdec henc
  rw [Enc.turn, List.getElem?_eq_none hend] at hstep
  obtain ⟨hprev, hcache, -, hdrive, hpx, hpos, hrun⟩ := Enc.flush_frame Config.spec.diffFields s.enc
  exact ⟨_, hstep, rfl, Enc.flush_out _ s.enc, hrun, hprev, hcache, hpx, hpos, hdrive, rfl, rfl, rfl⟩

/-- Settles O45: each event writes its pixel to the cache, run or not. -/
theorem encoderCacheIsItsHistory : Obligations.EncoderCacheIsItsHistory :=
  fun pixels => (Enc.events_spec_prev_cache pixels (Enc.start .stream [])).2

/-! ### The arms of the tag selector (R183, R187 to R191) -/

theorem lumaOk_iff (d : Deltas) :
    lumaOk d = true ↔ (-32 ≤ d.dg ∧ d.dg ≤ 31) ∧ (-8 ≤ d.dr - d.dg ∧ d.dr - d.dg ≤ 7) ∧
      (-8 ≤ d.db - d.dg ∧ d.db - d.dg ≤ 7) := by
  simp [lumaOk, and_assoc]

/-- The deltas of the spec's own build are signed 8-bit differences (R185, D8). -/
theorem deltas_spec (px prev : Pixel) :
    deltas Config.spec px prev = ⟨(px.r - prev.r).toInt, (px.g - prev.g).toInt, (px.b - prev.b).toInt⟩ := by
  rw [← s8_sub, ← s8_sub, ← s8_sub]
  rfl

section Selector
variable {cfg : Config} {slots : Cache} {prev px : Pixel}

theorem selectOpcode_of_hit (hhit : slots.read (pixelHash px) = px) :
    selectOpcode cfg slots prev px = .index (pixelHash px) :=
  if_pos ((hit_iff slots px).mpr hhit)

theorem selectOpcode_of_alpha (hmiss : slots.read (pixelHash px) ≠ px) (halpha : px.a ≠ prev.a) :
    selectOpcode cfg slots prev px = .rgba px.r px.g px.b px.a := by
  rw [selectOpcode, if_neg (mt (hit_iff slots px).mp hmiss), alphaChanged, if_pos (bne_iff_ne.mpr halpha), emitRgba]

/-- With no hit and alpha unchanged, the deltas alone decide. -/
theorem selectOpcode_of_miss (hmiss : slots.read (pixelHash px) ≠ px) (halpha : px.a = prev.a) :
    selectOpcode cfg slots prev px =
      if diffOk (deltas cfg px prev) then emitDiff (deltas cfg px prev)
      else if lumaOk (deltas cfg px prev) then emitLuma (deltas cfg px prev)
      else emitRgb px := by
  rw [selectOpcode, if_neg (mt (hit_iff slots px).mp hmiss), alphaChanged, halpha, if_neg (by simp)]

end Selector

/-- Settles O38: arms 2 and 3 of the tag selector, which come before the deltas are looked at. -/
theorem alphaChangeForcesRgba : Obligations.AlphaChangeForcesRgba := by
  intro cfg slots prev px halpha
  refine ⟨beq_false_of_ne fun heq => halpha (congrArg Pixel.a heq), fun hhit => ?_, fun hmiss => ?_⟩
  · exact selectOpcode_of_hit ((hit_iff slots px).mp hhit)
  · exact selectOpcode_of_alpha (fun hread => Bool.false_ne_true (hmiss.symm.trans ((hit_iff slots px).mpr hread))) halpha

/-! ### The step on a pixel that differs from the previous one (R192, R199, R259) -/

/-- All that the step does: a pending run's byte and the bytes of the opcode that the selector chooses are emitted, and the
pixel becomes the previous one and goes to its slot. -/
theorem step_of_selectOpcode {s : State} {px : Pixel} {i : Instr} (htakes : s.EncTakes px) (hne : px ≠ s.enc.prev)
    (hselect : selectOpcode Config.spec s.enc.cache s.enc.prev px = i) :
    ∃ t, step s = .next t ∧ s.PixelTaken t ∧ t.enc.prev = px ∧ t.enc.run = 0#6 ∧ s.enc.Cached px t.enc.cache ∧
      t.enc.out = s.enc.out ++ pendingBytes s.enc.run ++ encode .rgb i := by
  refine ⟨_, step_of_encTakes s px htakes, pixelTaken_of_pixelEvent Config.spec px s, ?_⟩
  obtain ⟨-, hcache, -, -, -, -, hrun⟩ := Enc.flush_frame Config.spec.diffFields s.enc
  rw [Enc.pixelEvent_of_ne Config.spec px s.enc hne, hselect]
  refine ⟨rfl, hrun, fun idx => ?_, congrArg (· ++ encode .rgb i) (Enc.flush_out _ s.enc)⟩
  rw [← hcache]
  exact Cache.read_write _ px idx

/-- Settles O32: arm 2 of the tag selector. -/
theorem encoderEmitsIndexOnHit : Obligations.EncoderEmitsIndexOnHit :=
  fun _ _ htakes hne hhit => step_of_selectOpcode htakes hne (selectOpcode_of_hit hhit)

/-- Settles O33: arm 3 of the tag selector; a pixel of another alpha is another pixel. -/
theorem encoderEmitsRgbaOnAlphaChange : Obligations.EncoderEmitsRgbaOnAlphaChange :=
  fun _ _ htakes hmiss halpha =>
    step_of_selectOpcode htakes (fun heq => halpha (congrArg Pixel.a heq)) (selectOpcode_of_alpha hmiss halpha)

/-- The field of a delta in its range is the delta plus the bias (R91). -/
theorem addBias_toNat (w : Nat) (bias delta : Int) (h0 : 0 ≤ delta + bias) (h1 : delta + bias < 2 ^ w) :
    ((addBias w bias delta).toNat : Int) = delta + bias := by
  have hread := unbias_addBias w bias delta h0 h1
  rw [unbias] at hread
  omega

theorem diffByte_toNat (hi mid lo : BitVec 2) :
    (diffByte hi mid lo).toNat = 0x40 + hi.toNat * 16 + mid.toNat * 4 + lo.toNat := by
  revert hi mid lo; decide

theorem lumaByte_toNat (dg : BitVec 6) : (lumaByte dg).toNat = 0x80 + dg.toNat := by
  revert dg; decide

theorem lumaSecond_toNat (drg dbg : BitVec 4) : (lumaSecond drg dbg).toNat = drg.toNat * 16 + dbg.toNat := by
  revert drg dbg; decide

/-- The byte of a DIFF that can be encoded, with its fields in the spec's order (R85, D6). -/
theorem exists_diff_byte {dr dg db : Int} (hwf : (Instr.diff dr dg db).WellFormed) :
    ∃ b : Byte, encode .rgb (.diff dr dg db) = [b] ∧
      (b.toNat : Int) = 0x40 + (dr + 2) * 16 + (dg + 2) * 4 + (db + 2) := by
  obtain ⟨⟨hr0, hr1⟩, ⟨hg0, hg1⟩, ⟨hb0, hb1⟩⟩ := hwf
  have hr := addBias_toNat 2 2 dr (by omega) (by omega)
  have hg := addBias_toNat 2 2 dg (by omega) (by omega)
  have hb := addBias_toNat 2 2 db (by omega) (by omega)
  refine ⟨_, rfl, ?_⟩
  rw [diffByte_toNat, ← hr, ← hg, ← hb]
  rfl

/-- The two bytes of a LUMA that can be encoded (R86). -/
theorem exists_luma_bytes {dg drg dbg : Int} (hwf : (Instr.luma dg drg dbg).WellFormed) :
    ∃ b0 b1 : Byte, encode .rgb (.luma dg drg dbg) = [b0, b1] ∧
      (b0.toNat : Int) = 0x80 + (dg + 32) ∧ (b1.toNat : Int) = (drg + 8) * 16 + (dbg + 8) := by
  obtain ⟨⟨hg0, hg1⟩, ⟨hr0, hr1⟩, ⟨hb0, hb1⟩⟩ := hwf
  have hg := addBias_toNat 6 32 dg (by omega) (by omega)
  have hr := addBias_toNat 4 8 drg (by omega) (by omega)
  have hb := addBias_toNat 4 8 dbg (by omega) (by omega)
  refine ⟨_, _, rfl, ?_, ?_⟩
  · rw [lumaByte_toNat, ← hg]
    rfl
  · rw [lumaSecond_toNat, ← hr, ← hb]
    rfl

/-- Settles O34: arm 4 of the tag selector, and the DIFF byte as the sum of its biased fields. -/
theorem encoderEmitsDiffForSmallDeltas : Obligations.EncoderEmitsDiffForSmallDeltas := by
  rintro s px dr dg db htakes hne hmiss halpha rfl rfl rfl hr hg hb
  have hselect := selectOpcode_of_miss (cfg := Config.spec) hmiss halpha
  rw [deltas_spec, if_pos ((diffOk_iff _).mpr ⟨hr, hg, hb⟩)] at hselect
  obtain ⟨t, hstep, htaken, hprev, hrun, hcached, hout⟩ := step_of_selectOpcode htakes hne hselect
  obtain ⟨b, hbytes, hvalue⟩ := exists_diff_byte ⟨hr, hg, hb⟩
  exact ⟨t, b, hstep, htaken, hprev, hrun, hcached, hout.trans (congrArg _ hbytes), hvalue⟩

/-- Settles O35: arm 5 of the tag selector, and the LUMA bytes as the sums of their biased fields. -/
theorem encoderEmitsLumaForMediumDeltas : Obligations.EncoderEmitsLumaForMediumDeltas := by
  rintro s px dr dg db htakes hne hmiss halpha rfl rfl rfl hdiff hg hr hb
  have hselect := selectOpcode_of_miss (cfg := Config.spec) hmiss halpha
  rw [deltas_spec, if_neg (mt (diffOk_iff _).mp hdiff), if_pos ((lumaOk_iff _).mpr ⟨hg, hr, hb⟩)] at hselect
  obtain ⟨t, hstep, htaken, hprev, hrun, hcached, hout⟩ := step_of_selectOpcode htakes hne hselect
  obtain ⟨b0, b1, hbytes, hvalue0, hvalue1⟩ := exists_luma_bytes ⟨hg, hr, hb⟩
  exact ⟨t, b0, b1, hstep, htaken, hprev, hrun, hcached, hout.trans (congrArg _ hbytes), hvalue0, hvalue1⟩

/-- Settles O36: the last arm of the tag selector. -/
theorem encoderEmitsRgbOtherwise : Obligations.EncoderEmitsRgbOtherwise := by
  rintro s px dr dg db htakes hne hmiss halpha rfl rfl rfl hdiff hluma
  have hselect := selectOpcode_of_miss (cfg := Config.spec) hmiss halpha
  rw [deltas_spec, if_neg (mt (diffOk_iff _).mp hdiff), if_neg (mt (lumaOk_iff _).mp hluma)] at hselect
  exact step_of_selectOpcode htakes hne hselect

/-! ### What a stretch and a payload cost (R186, R197) -/

theorem encodeAll_replicate (f : DiffFields) (i : Instr) (b : Byte) (n : Nat) (h : encode f i = [b]) :
    encodeAll f (List.replicate n i) = List.replicate n b := by
  rw [encodeAll, List.flatMap_replicate, h, List.flatten_replicate_singleton]

/-- The byte of a RUN that can be encoded, as a number (R87). -/
theorem encode_run (f : DiffFields) (n : Nat) (h : n ≤ 62) :
    encode f (.run n) = [BitVec.ofNat 8 (0xC0 + (n - 1))] := by
  have hvalue : (BitVec.ofNat 8 (0xC0 + (n - 1))).toNat = 0xC0 + (n - 1) := by
    rw [BitVec.toNat_ofNat]
    omega
  rw [encode, ← runByte_of_toNat _ n hvalue]

/-- Settles O39: the full RUNs of the stretch and the RUN of the rest, each one byte. -/
theorem stretchBytesClosedForm : Obligations.StretchBytesClosedForm := by
  intro f k
  have hrest : k % 62 ≤ 62 := (Nat.mod_lt k (by decide)).le
  rw [runOpcodes_eq k k le_rfl, encodeAll_append, encodeAll_replicate f _ 0xFD#8 _ rfl, runMax]
  split
  · rfl
  · rw [encodeAll_cons, encodeAll_nil, List.append_nil, encode_run f _ hrest]

/-- Settles O43: the payload decodes to the pixels (O47), and a payload's pixels are bounded by its bytes (O28). -/
theorem payloadSizeBounds : Obligations.PayloadSizeBounds :=
  fun cfg pixels => payloadPixelCountBounds cfg _ pixels (decodingTheEncodedPixelsGivesThemBack cfg pixels)

end Sys2Proof.Machine
end

section
/-! PROOFS. The errors (R220 to R223): the kind and the code of each cause, and the one cause that the decoder can raise. -/

namespace Sys2Proof.Machine

/-- Settles O55: the table of R221, row by row. -/
theorem errorKindsAndCodes : Obligations.ErrorKindsAndCodes :=
  ⟨⟨rfl, rfl⟩, ⟨rfl, rfl⟩, ⟨rfl, rfl⟩, ⟨rfl, rfl⟩, ⟨rfl, rfl⟩⟩

/-- No opcode raises anything of its own (R93), so an error of the loop is that of an opcode cut off by the end of IN (R162). -/
theorem eq_truncated_of_decLoop_eq_error (f : DiffFields) (fuel : Nat) (d : Dec) (cause : Cause)
    (herror : decLoop f fuel d = .error cause) : cause = .truncated := by
  induction fuel generalizing d with
  | zero => cases herror
  | succ fuel ih =>
    cases hfetch : d.fetch f with
    | ok fetched =>
      obtain ⟨i, rest⟩ := fetched
      rw [decLoop_of_fetch f fuel d i rest hfetch] at herror
      exact ih (d.iterate i) herror
    | error reason =>
      cases reason with
      | endOfInput =>
        rw [decLoop_of_endOfInput f fuel d hfetch] at herror
        cases herror
      | truncated b =>
        rw [decLoop_of_truncated f fuel d b hfetch] at herror
        exact (Except.error.inj herror).symm

/-- Settles O29: `dec_payload` is the loop from the start state. -/
theorem decoderFailsOnlyByTruncation : Obligations.DecoderFailsOnlyByTruncation :=
  fun cfg _ cause herror => eq_truncated_of_decLoop_eq_error cfg.diffFields _ _ cause herror

end Sys2Proof.Machine
end

section
/-! PROOFS. Reset and start (R250, R251), and the one hazard of the decoder's cache: an INDEX reads the slot that step 1 of its
own iteration has written (R255). -/

namespace Sys2Proof.Machine

/-! ### The hazard of an iteration (R152, R155, R255) -/

/-- INDEX with the hash of the previous pixel gives the previous pixel once more, whatever the slot held before step 1. -/
theorem Dec.iterate_index_hash_prev (d : Dec) :
    (d.iterate (.index (pixelHash d.prev))).prev = d.prev ∧
      (d.iterate (.index (pixelHash d.prev))).pix = d.pix ++ [d.prev] := by
  have hread : d.cachePrev.cache.read (pixelHash d.prev) = d.prev := Cache.read_write_self d.cache d.prev
  exact ⟨hread, congrArg (fun p => d.pix ++ [p]) hread⟩

/-- The loop only appends to PIX (R159), so what a pass has put out when it ends well begins with what it had before. -/
theorem isPrefix_pix_of_decLoop_eq_ok (f : DiffFields) (fuel : Nat) (d : Dec) (pixels : List Pixel)
    (hok : decLoop f fuel d = .ok pixels) : d.pix <+: pixels := by
  induction fuel generalizing d with
  | zero =>
    obtain rfl := Except.ok.inj hok
    exact ⟨[], List.append_nil _⟩
  | succ fuel ih =>
    cases hfetch : d.fetch f with
    | ok fetched =>
      obtain ⟨i, rest⟩ := fetched
      have hfits := Dec.cur_add_length_le_of_fetch f i rest hfetch
      obtain ⟨n, -, hpix⟩ := d.exists_perform_pix i
      have happend : d.pix <+: (d.iterate i).pix := by
        rw [Dec.iterate_eq_perform i d hfits, Dec.advance_pix, hpix]
        exact ⟨_, rfl⟩
      rw [decLoop_of_fetch f fuel d i rest hfetch] at hok
      exact happend.trans (ih (d.iterate i) hok)
    | error reason =>
      cases reason with
      | endOfInput =>
        rw [decLoop_of_endOfInput f fuel d hfetch] at hok
        obtain rfl := Except.ok.inj hok
        exact ⟨[], List.append_nil _⟩
      | truncated b =>
        rw [decLoop_of_truncated f fuel d b hfetch] at hok
        cases hok

/-- A payload that begins with INDEX 53, the hash of the initial previous pixel, begins with that pixel. -/
theorem head?_of_decPayload_index53 (cfg : Config) (rest : List Byte) (pixels : List Pixel)
    (hok : decPayload cfg (0x35#8 :: rest) = .ok pixels) : pixels.head? = some initialPrev := by
  have hfetch : (Dec.start .buffer (0x35#8 :: rest)).fetch cfg.diffFields = .ok (.index 53#6, rest) :=
    decode_encode_append cfg.diffFields (.index 53#6) rest trivial
  obtain ⟨-, hpix⟩ := Dec.iterate_index_hash_prev (Dec.start .buffer (0x35#8 :: rest))
  rw [Dec.start_prev, pixelHash_initialPrev, Dec.start_pix, List.nil_append] at hpix
  rw [decPayload, decLoop_of_fetch _ _ _ _ rest hfetch] at hok
  obtain ⟨later, rfl⟩ := hpix ▸ isPrefix_pix_of_decLoop_eq_ok _ _ _ pixels hok
  rfl

/-- Settles O23: step 1 writes the slot before the rule of INDEX reads it, in every iteration and so in the first of a
pass. -/
theorem indexReadsTheWriteOfItsIteration : Obligations.IndexReadsTheWriteOfItsIteration :=
  ⟨fun s => ⟨_, exec_eq_iterate _ s, s.dec.iterate_index_hash_prev.1⟩, head?_of_decPayload_index53 Config.spec⟩

/-! ### Reset and the ways to begin a pass (R250, R251) -/

/-- Settles O1: the three statuses of the reset state. -/
theorem powerOnStatusIsIdle : Obligations.PowerOnStatusIsIdle := ⟨rfl, rfl, rfl⟩

theorem Dec.atStart_start (drive : Drive) (payload : List Byte) : (Dec.start drive payload).AtStart drive payload :=
  ⟨rfl, Cache.read_clear, rfl, rfl, rfl, rfl, rfl, rfl⟩

theorem Enc.atStart_start (drive : Drive) (pixels : List Pixel) : (Enc.start drive pixels).AtStart drive pixels :=
  ⟨rfl, Cache.read_clear, rfl, rfl, rfl, rfl, rfl, rfl⟩

/-- The host's Start of DEC on a buffer (R250). -/
theorem step_of_startDec {s : State} {payload : List Byte} {rest : List HostMove} (hturn : s.HostsTurn)
    (hidle : s.dec.status ≠ .busy) (hinbox : s.inbox = .startDec payload :: rest) :
    step s = .next (s.afterDecMoves (Dec.start .buffer payload) rest) := by
  rw [step_of_host_move s _ rest hturn hinbox, hostMove, if_neg hidle, admits_spec]
  rfl

/-- The host's Start of ENC on a buffer (R250). -/
theorem step_of_startEnc {s : State} {pixels : List Pixel} {rest : List HostMove} (hturn : s.HostsTurn)
    (hidle : s.enc.status ≠ .busy) (hinbox : s.inbox = .startEnc pixels :: rest) :
    step s = .next (s.afterEncMoves (Enc.start .buffer pixels) rest) := by
  rw [step_of_host_move s _ rest hturn hinbox, hostMove, if_neg hidle, admits_spec]
  rfl

/-- The host's call of `frame_decode` of a file that is well framed (R137 steps 1 to 7). -/
theorem step_of_frameDecode_ok {s : State} {file payload : List Byte} {header : Header} {rest : List HostMove}
    (hturn : s.HostsTurn) (hidle : s.dec.status ≠ .busy) (hinbox : s.inbox = .frameDecode file :: rest)
    (hopen : frameOpen file = .ok (header, payload)) :
    step s = .next ((s.afterDecMoves (Dec.start .buffer payload) rest).withFrame
      ((s.frame.setFile file).awaitDec header)) := by
  rw [step_of_frameDecode hturn hidle hinbox, beginFrameDecode_of_ok _ file payload header hopen]
  rfl

/-- Settles O2: each of the six moves that begin a pass puts `Dec.start` or `Enc.start` in the agent's place. -/
theorem startSetsEveryRegister : Obligations.StartSetsEveryRegister := by
  intro s rest hturn
  refine ⟨fun payload hinbox hidle => ?startDec, fun hinbox hidle => ?openDec,
    fun file header payload hinbox hidle hopen => ?frameDecode, fun pixels hinbox hidle => ?startEnc,
    fun hinbox hidle => ?openEnc, fun _ _ _ _ pixels hinbox hidle hvalid => ?frameEncode⟩
  case startDec => exact ⟨_, step_of_startDec hturn hidle hinbox, Dec.atStart_start .buffer payload, rfl, rfl, rfl⟩
  case openDec => exact ⟨_, step_of_openDec hturn hidle hinbox, Dec.atStart_start .stream [], rfl, rfl, rfl⟩
  case frameDecode =>
    exact ⟨_, step_of_frameDecode_ok hturn hidle hinbox hopen, Dec.atStart_start .buffer payload, rfl, rfl⟩
  case startEnc => exact ⟨_, step_of_startEnc hturn hidle hinbox, Enc.atStart_start .buffer pixels, rfl, rfl, rfl⟩
  case openEnc => exact ⟨_, step_of_openEnc hturn hidle hinbox, Enc.atStart_start .stream [], rfl, rfl, rfl⟩
  case frameEncode =>
    exact ⟨_, step_of_frameEncode hturn hidle hinbox hvalid, Enc.atStart_start .buffer pixels, rfl, rfl⟩

end Sys2Proof.Machine
end
